-- ==== Sys2Proof/Word.lean ====
section
/-! DEFINITION. The machine word, the byte and the register number (spec/00_scope.md rules R7, R9, R10;
spec/10_state.md rule R20). Every width here is fixed by rule R7. -/

namespace Sys2Proof

/-- A 16-bit unit of storage (R7, R14 "Word"): register contents, the PC, word addresses, instruction words. -/
abbrev Word := BitVec 16

/-- One 8-bit byte: a lane of a memory word (R55) and a character code of the IO port (R220). -/
abbrev Byte := BitVec 8

/-- A register number: a 3-bit field whose value i names Ri (R20). -/
abbrev RegNum := BitVec 3

end Sys2Proof
end

