-- ==== Sys2Proof/Config.lean ====
section
/-! DEFINITION. What is fixed for one machine and not changed by a step (spec/00_scope.md rule R8, spec/10_state.md
rule R35): the parameters the spec leaves to the model, and the free values (opaque, with no body). -/

namespace Sys2Proof

/-- The domain of the parameter reset_cc (R8, R33): N, Z, P or NONE (all three flags false). -/
inductive ResetCc where
  | n
  | z
  | p
  | none
  deriving DecidableEq, Repr

/-- The three construction parameters of R8 and R33: reset_regs, reset_cc and reset_pc. -/
structure ResetParams where
  regs : Vector Word 8
  cc : ResetCc
  pc : Word
  deriving DecidableEq, Repr

namespace Config

/-- STRICT_UNUSED_BITS (R8, R96): false is the spec's default, under which unused instruction bits are ignored.
The decoder and the engine take it as an argument, so statements hold for both settings; only `Machine.step` and
`decodeTableWord` read this value (notes/assumptions/9.md). -/
def strictUnusedBits : Bool := false

/-- DESIGN CHOICE (notes/assumptions/1.md): the construction values that `State.reset` uses where the spec leaves
reset_regs, reset_cc and reset_pc open: all registers zero, cc = NONE, PC = 0x0000. Unsafe: a claim about `State.reset`
that leans on one of these values is about one engine. `State.new` takes the parameters as arguments. -/
def resetParams : ResetParams where
  regs := Vector.replicate 8 0#16
  cc := .none
  pc := 0#16

/-- IN_PROMPT (R8, R229): the byte string the default IO writes before IN reads. The spec leaves it open, so it is a
free value (notes/assumptions/3.md). -/
opaque inPrompt : List Byte

/-- The input oracle (R8, R224): its n-th answer, none or an 8-bit code. The spec leaves every answer open, so it is a
free value (notes/assumptions/2.md); one oracle serves every engine instance (notes/assumptions/16.md). -/
opaque inputOracle : Nat → Option Byte

end Config

end Sys2Proof
end

