-- ==== Sys2Proof/Syntax.lean ====
section
/-! DEFINITION. Instructions. `Instr` has one constructor per row of spec/opcode_table.json; `Variant` is the closed
set of decoded variants of spec/30_encoding.md rule R90, which the trace port reports. Fields are the raw instruction
fields (R84): nothing is sign-extended or scaled here. -/

namespace Sys2Proof

/-- One constructor per row of spec/opcode_table.json (the comment gives the row's mnemonic and rule). The two forms
of ADD, AND and XOR are separate rows, and so are the six mapped TRAP vectors. -/
inductive Instr where
  /-- ADD (R121): DR, SR1, SR2 -/
  | add (dr sr1 sr2 : RegNum)
  /-- ADD__imm (R121): DR, SR1, imm5 -/
  | addImm (dr sr1 : RegNum) (imm5 : BitVec 5)
  /-- AND (R122) -/
  | and (dr sr1 sr2 : RegNum)
  /-- AND__imm (R122) -/
  | andImm (dr sr1 : RegNum) (imm5 : BitVec 5)
  /-- XOR (R123) -/
  | xor (dr sr1 sr2 : RegNum)
  /-- XOR__imm (R123); imm5 = 0b11111 is written `not` (R95, R99) -/
  | xorImm (dr sr1 : RegNum) (imm5 : BitVec 5)
  /-- NOT (R124) -/
  | not (dr sr : RegNum)
  /-- LSHF (R125): SHF with dir = 0 -/
  | lshf (dr sr : RegNum) (amount4 : BitVec 4)
  /-- RSHFL (R126): SHF with dir = 1, arith = 0 -/
  | rshfl (dr sr : RegNum) (amount4 : BitVec 4)
  /-- RSHFA (R127): SHF with dir = 1, arith = 1 -/
  | rshfa (dr sr : RegNum) (amount4 : BitVec 4)
  /-- BR (R152) -/
  | br (n z p : Bool) (offset9 : BitVec 9)
  /-- JMP (R153); BaseR = 7 is written `ret` (R95, R99) -/
  | jmp (baseR : RegNum)
  /-- RET (R154) -/
  | ret
  /-- JSR (R155) -/
  | jsr (offset11 : BitVec 11)
  /-- JSRR (R156) -/
  | jsrr (baseR : RegNum)
  /-- LDB (R181) -/
  | ldb (dr baseR : RegNum) (offset6 : BitVec 6)
  /-- STB (R182) -/
  | stb (sr baseR : RegNum) (offset6 : BitVec 6)
  /-- LDR (R183) -/
  | ldr (dr baseR : RegNum) (offset6 : BitVec 6)
  /-- STR (R184) -/
  | str (sr baseR : RegNum) (offset6 : BitVec 6)
  /-- LDI (R185) -/
  | ldi (dr baseR : RegNum) (offset6 : BitVec 6)
  /-- STI (R186) -/
  | sti (sr baseR : RegNum) (offset6 : BitVec 6)
  /-- LEA (R187) -/
  | lea (dr : RegNum) (offset9 : BitVec 9)
  /-- TRAP (R221) with a vector that no service row names; the mapped vectors have rows of their own -/
  | trap (vector8 : BitVec 8)
  /-- GETC: TRAP 0x20 (R223) -/
  | getc
  /-- OUT: TRAP 0x21 (R225) -/
  | out
  /-- PUTS: TRAP 0x22 (R226) -/
  | puts
  /-- IN: TRAP 0x23 (R228) -/
  | inn
  /-- PUTSP: TRAP 0x24 (R230) -/
  | putsp
  /-- HALT: TRAP 0x25 (R231) -/
  | halt
  /-- RTI (R235) -/
  | rti
  deriving DecidableEq, Repr

/-- The second source of a two-operand ALU variant (R90): a register or a raw imm5. -/
inductive Src where
  | reg (sr2 : RegNum)
  | imm (imm5 : BitVec 5)
  deriving DecidableEq, Repr

/-- The kind of a shift variant (R90). -/
inductive ShfKind where
  | lshf
  | rshfl
  | rshfa
  deriving DecidableEq, Repr

/-- The decoder's closed set of variants, with the raw fields each carries (R90). `Instr` has a constructor per opcode-table
row instead, and the trace reports the variant (DESIGN CHOICE, notes/assumptions/10.md). -/
inductive Variant where
  | add (dr sr1 : RegNum) (src : Src)
  | and (dr sr1 : RegNum) (src : Src)
  | xor (dr sr1 : RegNum) (src : Src)
  | not (dr sr : RegNum)
  | shf (dr sr : RegNum) (kind : ShfKind) (amount4 : BitVec 4)
  | br (n z p : Bool) (offset9 : BitVec 9)
  | jmp (baseR : RegNum)
  | ret
  | jsr (offset11 : BitVec 11)
  | jsrr (baseR : RegNum)
  | ldb (dr baseR : RegNum) (offset6 : BitVec 6)
  | ldr (dr baseR : RegNum) (offset6 : BitVec 6)
  | ldi (dr baseR : RegNum) (offset6 : BitVec 6)
  | lea (dr : RegNum) (offset9 : BitVec 9)
  | stb (sr baseR : RegNum) (offset6 : BitVec 6)
  | str (sr baseR : RegNum) (offset6 : BitVec 6)
  | sti (sr baseR : RegNum) (offset6 : BitVec 6)
  | trap (vector8 : BitVec 8)
  | rti
  deriving DecidableEq, Repr

/-- The reason a DecodeError carries. The spec's only one is "nonzero unused bits" (R92, R261). -/
inductive DecodeReason where
  | nonzeroUnusedBits
  deriving DecidableEq, Repr

/-- The row names of spec/opcode_table.json, in its order (the mnemonic of each row, as a constructor). -/
inductive Mnemonic where
  | add
  | addImm
  | and
  | andImm
  | xor
  | xorImm
  | not
  | lshf
  | rshfl
  | rshfa
  | br
  | jmp
  | ret
  | jsr
  | jsrr
  | ldb
  | stb
  | ldr
  | str
  | ldi
  | sti
  | lea
  | trap
  | getc
  | out
  | puts
  | inn
  | putsp
  | halt
  | rti
  deriving DecidableEq, Repr

end Sys2Proof
end

