-- ==== Sys2Proof/WellFormed.lean ====
section
/-! DEFINITION. Which terms of `Instr` are canonical (spec/30_encoding.md rules R95 and R99). The fields' widths are
types, so every register, immediate, offset, amount and vector is in range by construction; what is left to check is
that a form which exists only as its alias is written as that alias. -/

namespace Sys2Proof

/-- The vectors that the dispatch table of R221 maps to a service. -/
def mappedVectors : List (BitVec 8) := [0x20#8, 0x21#8, 0x22#8, 0x23#8, 0x24#8, 0x25#8]

/-- R95 and R99: `jmp 7` is written `ret`, `xorImm` with imm5 = 0b11111 is written `not`; and a TRAP whose vector has a
service row of its own in the opcode table is written as that row. Every other term is canonical. -/
def Instr.wellFormed : Instr → Bool
  | .xorImm _ _ imm5 => imm5 != 0b11111#5
  | .jmp baseR => baseR != 7#3
  | .trap vector8 => !mappedVectors.contains vector8
  | .add _ _ _ | .addImm _ _ _ | .and _ _ _ | .andImm _ _ _ | .xor _ _ _ | .not _ _ | .lshf _ _ _
  | .rshfl _ _ _ | .rshfa _ _ _ | .br _ _ _ _ | .ret | .jsr _ | .jsrr _ | .ldb _ _ _ | .stb _ _ _
  | .ldr _ _ _ | .str _ _ _ | .ldi _ _ _ | .sti _ _ _ | .lea _ _ | .getc | .out | .puts | .inn | .putsp
  | .halt | .rti => true

end Sys2Proof
end

