-- ==== Sys2Proof/Decode.lean ====
section
/-! DEFINITION. The decoder (spec/30_encoding.md rules R80 to R97, R92 above all), the encoder (R98), the opcode table's
rows as data (spec/opcode_table.json), and construction from signed operands (R99). Written from the tables of R81,
R82, R96 and R98. -/

namespace Sys2Proof

/-! ### Field extraction (R82) -/

/-- op = w[15:12] -/
def opField (w : Word) : BitVec 4 := w.extractLsb' 12 4
/-- DR, and SR of a store: w[11:9] -/
def drField (w : Word) : RegNum := w.extractLsb' 9 3
/-- SR1, BaseR, and SR of a shift: w[8:6] -/
def baseField (w : Word) : RegNum := w.extractLsb' 6 3
/-- SR2 = w[2:0] -/
def sr2Field (w : Word) : RegNum := w.extractLsb' 0 3
/-- imm5 = w[4:0] -/
def imm5Field (w : Word) : BitVec 5 := w.extractLsb' 0 5
/-- offset6 = w[5:0] -/
def offset6Field (w : Word) : BitVec 6 := w.extractLsb' 0 6
/-- offset9 = w[8:0] -/
def offset9Field (w : Word) : BitVec 9 := w.extractLsb' 0 9
/-- offset11 = w[10:0] -/
def offset11Field (w : Word) : BitVec 11 := w.extractLsb' 0 11
/-- amount4 = w[3:0] -/
def amount4Field (w : Word) : BitVec 4 := w.extractLsb' 0 4
/-- vector8 = w[7:0] -/
def vector8Field (w : Word) : BitVec 8 := w.extractLsb' 0 8
/-- The mode bit of ADD, AND and XOR, and the dir bit of SHF: w[5] -/
def modeBit (w : Word) : Bool := w.getLsbD 5
/-- The arith bit of SHF: w[4] -/
def arithBit (w : Word) : Bool := w.getLsbD 4
/-- The flag bit of JSR / JSRR, and the n bit of BR: w[11] -/
def flagBit (w : Word) : Bool := w.getLsbD 11

/-- src(w) of R92: the register form (mode = 0) or the immediate form (mode = 1) (R94). -/
def srcField (w : Word) : Src := if modeBit w then .imm (imm5Field w) else .reg (sr2Field w)

/-! ### The decoder (R91, R92, R94, R95) -/

/-- The opcode map and the selection within a family, as R92 writes them, for a word whose unused bits are accepted.
All 16 selectors are assigned (R91, R93); the last arm is selector 1111, TRAP. -/
def decodeVariant (w : Word) : Variant :=
  match opField w with
  | 0b0001#4 => .add (drField w) (baseField w) (srcField w)
  | 0b0101#4 => .and (drField w) (baseField w) (srcField w)
  | 0b1001#4 =>
    if modeBit w && imm5Field w == 0b11111#5 then .not (drField w) (baseField w)
    else .xor (drField w) (baseField w) (srcField w)
  | 0b0000#4 => .br (flagBit w) (w.getLsbD 10) (w.getLsbD 9) (offset9Field w)
  | 0b1100#4 => if baseField w == 7#3 then .ret else .jmp (baseField w)
  | 0b0100#4 => if flagBit w then .jsr (offset11Field w) else .jsrr (baseField w)
  | 0b0010#4 => .ldb (drField w) (baseField w) (offset6Field w)
  | 0b0110#4 => .ldr (drField w) (baseField w) (offset6Field w)
  | 0b1010#4 => .ldi (drField w) (baseField w) (offset6Field w)
  | 0b0011#4 => .stb (drField w) (baseField w) (offset6Field w)
  | 0b0111#4 => .str (drField w) (baseField w) (offset6Field w)
  | 0b1011#4 => .sti (drField w) (baseField w) (offset6Field w)
  | 0b1110#4 => .lea (drField w) (offset9Field w)
  | 0b1101#4 =>
    .shf (drField w) (baseField w)
      (if modeBit w then (if arithBit w then .rshfa else .rshfl) else .lshf) (amount4Field w)
  | 0b1000#4 => .rti
  | _ => .trap (vector8Field w)

/-- The row of a TRAP vector: a mapped vector has a service row of its own (R222). -/
def Instr.ofVector (vector8 : BitVec 8) : Instr :=
  if vector8 = 0x20#8 then .getc
  else if vector8 = 0x21#8 then .out
  else if vector8 = 0x22#8 then .puts
  else if vector8 = 0x23#8 then .inn
  else if vector8 = 0x24#8 then .putsp
  else if vector8 = 0x25#8 then .halt
  else .trap vector8

/-- A variant as the term of `Instr` that stands for its opcode-table row: the register and immediate forms, the three
shifts and the six mapped TRAP vectors are rows of their own (R121 to R127, R222). -/
def Instr.ofVariant : Variant → Instr
  | .add dr sr1 (.reg sr2) => .add dr sr1 sr2
  | .add dr sr1 (.imm imm5) => .addImm dr sr1 imm5
  | .and dr sr1 (.reg sr2) => .and dr sr1 sr2
  | .and dr sr1 (.imm imm5) => .andImm dr sr1 imm5
  | .xor dr sr1 (.reg sr2) => .xor dr sr1 sr2
  | .xor dr sr1 (.imm imm5) => .xorImm dr sr1 imm5
  | .not dr sr => .not dr sr
  | .shf dr sr .lshf amount4 => .lshf dr sr amount4
  | .shf dr sr .rshfl amount4 => .rshfl dr sr amount4
  | .shf dr sr .rshfa amount4 => .rshfa dr sr amount4
  | .br n z p offset9 => .br n z p offset9
  | .jmp baseR => .jmp baseR
  | .ret => .ret
  | .jsr offset11 => .jsr offset11
  | .jsrr baseR => .jsrr baseR
  | .ldb dr baseR offset6 => .ldb dr baseR offset6
  | .ldr dr baseR offset6 => .ldr dr baseR offset6
  | .ldi dr baseR offset6 => .ldi dr baseR offset6
  | .lea dr offset9 => .lea dr offset9
  | .stb sr baseR offset6 => .stb sr baseR offset6
  | .str sr baseR offset6 => .str sr baseR offset6
  | .sti sr baseR offset6 => .sti sr baseR offset6
  | .trap vector8 => Instr.ofVector vector8
  | .rti => .rti

/-- The variant of R90 that an instruction is: what the trace port reports as `instr`. The service rows are the
variant Trap(vector8). -/
def Instr.variant : Instr → Variant
  | .add dr sr1 sr2 => .add dr sr1 (.reg sr2)
  | .addImm dr sr1 imm5 => .add dr sr1 (.imm imm5)
  | .and dr sr1 sr2 => .and dr sr1 (.reg sr2)
  | .andImm dr sr1 imm5 => .and dr sr1 (.imm imm5)
  | .xor dr sr1 sr2 => .xor dr sr1 (.reg sr2)
  | .xorImm dr sr1 imm5 => .xor dr sr1 (.imm imm5)
  | .not dr sr => .not dr sr
  | .lshf dr sr amount4 => .shf dr sr .lshf amount4
  | .rshfl dr sr amount4 => .shf dr sr .rshfl amount4
  | .rshfa dr sr amount4 => .shf dr sr .rshfa amount4
  | .br n z p offset9 => .br n z p offset9
  | .jmp baseR => .jmp baseR
  | .ret => .ret
  | .jsr offset11 => .jsr offset11
  | .jsrr baseR => .jsrr baseR
  | .ldb dr baseR offset6 => .ldb dr baseR offset6
  | .stb sr baseR offset6 => .stb sr baseR offset6
  | .ldr dr baseR offset6 => .ldr dr baseR offset6
  | .str sr baseR offset6 => .str sr baseR offset6
  | .ldi dr baseR offset6 => .ldi dr baseR offset6
  | .sti sr baseR offset6 => .sti sr baseR offset6
  | .lea dr offset9 => .lea dr offset9
  | .trap vector8 => .trap vector8
  | .getc => .trap 0x20#8
  | .out => .trap 0x21#8
  | .puts => .trap 0x22#8
  | .inn => .trap 0x23#8
  | .putsp => .trap 0x24#8
  | .halt => .trap 0x25#8
  | .rti => .rti

/-- The mask of unused bits of the format that `w` selects (R96); zero for a format with none. -/
def unusedMask (w : Word) : Word :=
  match opField w with
  | 0b0001#4 => if modeBit w then 0x0000#16 else 0x0018#16
  | 0b0101#4 => if modeBit w then 0x0000#16 else 0x0018#16
  | 0b1001#4 => if modeBit w then 0x0000#16 else 0x0018#16
  | 0b1100#4 => 0x0E3F#16
  | 0b0100#4 => if flagBit w then 0x0000#16 else 0x063F#16
  | 0b1000#4 => 0x0FFF#16
  | 0b1101#4 => if modeBit w then 0x0000#16 else 0x0010#16
  | 0b1111#4 => 0x0F00#16
  | _ => 0x0000#16

/-- unused_bits(w) of R96. -/
def unusedBits (w : Word) : Word := w &&& unusedMask w

/-- decode(w) of R92. With `strict` = false (the default) it never fails (R93); with `strict` = true a word with a
nonzero unused bit is rejected, by name. -/
def decode (strict : Bool) (w : Word) : Except DecodeReason Instr :=
  if strict && unusedBits w != 0#16 then .error .nonzeroUnusedBits
  else .ok (Instr.ofVariant (decodeVariant w))

/-! ### The encoder (R81, R98) -/

/-- One bit as a field. -/
def bit (b : Bool) : BitVec 1 := BitVec.ofBool b

/-! The formats of R81, each from bit 15 down. Unused bits are written 0 (R98). -/

/-- OPR: op DR SR1 0 00 SR2 -/
def wordOpr (op : BitVec 4) (dr sr1 sr2 : RegNum) : Word := op ++ dr ++ sr1 ++ 0b0#1 ++ 0b00#2 ++ sr2
/-- OPI: op DR SR1 1 imm5 -/
def wordOpi (op : BitVec 4) (dr sr1 : RegNum) (imm5 : BitVec 5) : Word := op ++ dr ++ sr1 ++ 0b1#1 ++ imm5
/-- BR: 0000 n z p offset9 -/
def wordBr (n z p : Bool) (offset9 : BitVec 9) : Word := 0b0000#4 ++ bit n ++ bit z ++ bit p ++ offset9
/-- JMP: 1100 000 BaseR 000000 -/
def wordJmp (baseR : RegNum) : Word := 0b1100#4 ++ 0b000#3 ++ baseR ++ 0b000000#6
/-- JSR: 0100 1 offset11 -/
def wordJsr (offset11 : BitVec 11) : Word := 0b0100#4 ++ 0b1#1 ++ offset11
/-- JSRR: 0100 0 00 BaseR 000000 -/
def wordJsrr (baseR : RegNum) : Word := 0b0100#4 ++ 0b0#1 ++ 0b00#2 ++ baseR ++ 0b000000#6
/-- LD and ST: op DR|SR BaseR offset6 -/
def wordLdSt (op : BitVec 4) (r baseR : RegNum) (offset6 : BitVec 6) : Word := op ++ r ++ baseR ++ offset6
/-- LEA: 1110 DR offset9 -/
def wordLea (dr : RegNum) (offset9 : BitVec 9) : Word := 0b1110#4 ++ dr ++ offset9
/-- RTI: 1000 000000000000 -/
def wordRti : Word := 0b1000#4 ++ 0b000000000000#12
/-- SHF: 1101 DR SR dir arith amount4 -/
def wordShf (dr sr : RegNum) (dir arith : Bool) (amount4 : BitVec 4) : Word :=
  0b1101#4 ++ dr ++ sr ++ bit dir ++ bit arith ++ amount4
/-- TRAP: 1111 0000 vector8 -/
def wordTrap (vector8 : BitVec 8) : Word := 0b1111#4 ++ 0b0000#4 ++ vector8

/-- The word of an instruction (R98): its format with its opcode (R81). It never fails. -/
def encode : Instr → Word
  | .add dr sr1 sr2 => wordOpr 0b0001#4 dr sr1 sr2
  | .addImm dr sr1 imm5 => wordOpi 0b0001#4 dr sr1 imm5
  | .and dr sr1 sr2 => wordOpr 0b0101#4 dr sr1 sr2
  | .andImm dr sr1 imm5 => wordOpi 0b0101#4 dr sr1 imm5
  | .xor dr sr1 sr2 => wordOpr 0b1001#4 dr sr1 sr2
  | .xorImm dr sr1 imm5 => wordOpi 0b1001#4 dr sr1 imm5
  | .not dr sr => wordOpi 0b1001#4 dr sr 0b11111#5
  | .lshf dr sr amount4 => wordShf dr sr false false amount4
  | .rshfl dr sr amount4 => wordShf dr sr true false amount4
  | .rshfa dr sr amount4 => wordShf dr sr true true amount4
  | .br n z p offset9 => wordBr n z p offset9
  | .jmp baseR => wordJmp baseR
  | .ret => wordJmp 0b111#3
  | .jsr offset11 => wordJsr offset11
  | .jsrr baseR => wordJsrr baseR
  | .ldb dr baseR offset6 => wordLdSt 0b0010#4 dr baseR offset6
  | .stb sr baseR offset6 => wordLdSt 0b0011#4 sr baseR offset6
  | .ldr dr baseR offset6 => wordLdSt 0b0110#4 dr baseR offset6
  | .str sr baseR offset6 => wordLdSt 0b0111#4 sr baseR offset6
  | .ldi dr baseR offset6 => wordLdSt 0b1010#4 dr baseR offset6
  | .sti sr baseR offset6 => wordLdSt 0b1011#4 sr baseR offset6
  | .lea dr offset9 => wordLea dr offset9
  | .trap vector8 => wordTrap vector8
  | .getc => wordTrap 0x20#8
  | .out => wordTrap 0x21#8
  | .puts => wordTrap 0x22#8
  | .inn => wordTrap 0x23#8
  | .putsp => wordTrap 0x24#8
  | .halt => wordTrap 0x25#8
  | .rti => wordRti

/-! ### Construction from signed operands (R99) -/

/-- A signed operand of an n-bit field, accepted when it lies in the two's-complement range of the width (R99:
imm5 -16..+15, offset6 -32..+31, offset9 -256..+255, offset11 -1024..+1023). -/
def signedOperand? (n : Nat) (k : Int) : Option (BitVec n) :=
  if -(2 : Int) ^ (n - 1) ≤ k ∧ k < (2 : Int) ^ (n - 1) then some (BitVec.ofInt n k) else none

/-- An unsigned operand of an n-bit field (R99: registers 0..7, amount4 0..15, vector8 0..255). -/
def unsignedOperand? (n : Nat) (k : Nat) : Option (BitVec n) :=
  if k < 2 ^ n then some (BitVec.ofNat n k) else none

/-- R99's last check: a form that exists only as its canonical alias cannot be constructed. -/
def Instr.construct? (i : Instr) : Option Instr := if i.wellFormed then some i else none

/-! ### The opcode table as data (spec/opcode_table.json) -/

/-- One row: a word matches it when w & mask = match. -/
structure OpcodeRow where
  mnemonic : Mnemonic
  value : Word
  mask : Word
  deriving DecidableEq, Repr

/-- The rows of spec/opcode_table.json, in its order. -/
def opcodeTable : List OpcodeRow :=
  [⟨.add, 0x1000#16, 0xF020#16⟩,
   ⟨.addImm, 0x1020#16, 0xF020#16⟩,
   ⟨.and, 0x5000#16, 0xF020#16⟩,
   ⟨.andImm, 0x5020#16, 0xF020#16⟩,
   ⟨.xor, 0x9000#16, 0xF020#16⟩,
   ⟨.xorImm, 0x9020#16, 0xF020#16⟩,
   ⟨.not, 0x903F#16, 0xF03F#16⟩,
   ⟨.lshf, 0xD000#16, 0xF020#16⟩,
   ⟨.rshfl, 0xD020#16, 0xF030#16⟩,
   ⟨.rshfa, 0xD030#16, 0xF030#16⟩,
   ⟨.br, 0x0000#16, 0xF000#16⟩,
   ⟨.jmp, 0xC000#16, 0xF000#16⟩,
   ⟨.ret, 0xC1C0#16, 0xF1C0#16⟩,
   ⟨.jsr, 0x4800#16, 0xF800#16⟩,
   ⟨.jsrr, 0x4000#16, 0xF800#16⟩,
   ⟨.ldb, 0x2000#16, 0xF000#16⟩,
   ⟨.stb, 0x3000#16, 0xF000#16⟩,
   ⟨.ldr, 0x6000#16, 0xF000#16⟩,
   ⟨.str, 0x7000#16, 0xF000#16⟩,
   ⟨.ldi, 0xA000#16, 0xF000#16⟩,
   ⟨.sti, 0xB000#16, 0xF000#16⟩,
   ⟨.lea, 0xE000#16, 0xF000#16⟩,
   ⟨.trap, 0xF000#16, 0xF000#16⟩,
   ⟨.getc, 0xF020#16, 0xF0FF#16⟩,
   ⟨.out, 0xF021#16, 0xF0FF#16⟩,
   ⟨.puts, 0xF022#16, 0xF0FF#16⟩,
   ⟨.inn, 0xF023#16, 0xF0FF#16⟩,
   ⟨.putsp, 0xF024#16, 0xF0FF#16⟩,
   ⟨.halt, 0xF025#16, 0xF0FF#16⟩,
   ⟨.rti, 0x8000#16, 0xF000#16⟩]

/-- A word matches a row when w & mask = match. -/
def OpcodeRow.matchesWord (row : OpcodeRow) (w : Word) : Bool := w &&& row.mask == row.value

/-- How specific a row is: the number of 1 bits of its mask. -/
def OpcodeRow.specificity (row : OpcodeRow) : Nat := (List.range 16).countP fun k => row.mask.getLsbD k

/-- The opcode-table row an instruction is. -/
def Instr.mnemonic : Instr → Mnemonic
  | .add _ _ _ => .add
  | .addImm _ _ _ => .addImm
  | .and _ _ _ => .and
  | .andImm _ _ _ => .andImm
  | .xor _ _ _ => .xor
  | .xorImm _ _ _ => .xorImm
  | .not _ _ => .not
  | .lshf _ _ _ => .lshf
  | .rshfl _ _ _ => .rshfl
  | .rshfa _ _ _ => .rshfa
  | .br _ _ _ _ => .br
  | .jmp _ => .jmp
  | .ret => .ret
  | .jsr _ => .jsr
  | .jsrr _ => .jsrr
  | .ldb _ _ _ => .ldb
  | .stb _ _ _ => .stb
  | .ldr _ _ _ => .ldr
  | .str _ _ _ => .str
  | .ldi _ _ _ => .ldi
  | .sti _ _ _ => .sti
  | .lea _ _ => .lea
  | .trap _ => .trap
  | .getc => .getc
  | .out => .out
  | .puts => .puts
  | .inn => .inn
  | .putsp => .putsp
  | .halt => .halt
  | .rti => .rti

/-! ### The host's entry -/

/-- The word of an opcode-table row: one 16-bit word, fetched whole (R56, R80), so it has no byte order. Bits at and
above nbits are 0. -/
def tableWord (nbits w : Nat) : Word := BitVec.ofNat 16 (w % 2 ^ nbits)

/-- The instruction the decoder reads from a table word, under the configured setting of STRICT_UNUSED_BITS. -/
def decodeTableWord (nbits w : Nat) : Option Instr :=
  match decode Config.strictUnusedBits (tableWord nbits w) with
  | .ok i => some i
  | .error _ => none

end Sys2Proof
end

