-- ==== Sys2Proof/Machine/State.lean ====
section
/-! DEFINITION. The state, as plain data (spec/10_state.md rules R20 to R35): the register file, the PC, the condition
flags, the memory, the fault mark, and the console and trace ports' ends that the core drives (the halted latch, the
input stream, the IO requests made, the trace events emitted). Also the reasons a step can stop, and reset. -/

namespace Sys2Proof.Machine

/-- The condition flags, three booleans (R25). All three may be false before the first flag-setting instruction
(R27). -/
structure Flags where
  n : Bool
  z : Bool
  p : Bool
  deriving DecidableEq, Repr

/-- The memory's contents: byte lanes by key, in the canonical form of `Memory.wf`. Word address a has its low byte at
key 2a and its high byte at key 2a + 1 (R55); a byte that is not listed reads as `unlistedByte`. The keys are a
representation of the one array of 65536 words (notes/assumptions/4.md). -/
structure Memory where
  cells : List Host.Cell
  deriving DecidableEq, Repr

/-- The fatal errors (R260), each with what it records. -/
inductive FatalError where
  /-- The decoder rejects the fetched word (R261): the address, the word and the reason. -/
  | decodeError (addr word : Word) (reason : DecodeReason)
  /-- A decodable instruction that cannot execute, RTI only (R262): the address and the word. -/
  | unimplementedInstruction (addr word : Word)
  /-- Reserved for bounded-memory variants: nothing raises it (R263). -/
  | invalidMemoryAccess
  deriving DecidableEq, Repr

/-- A request of the core on the IO port (R220), with the answer where the IO gives one. `Io.isHalted` only reads the
latch and is not recorded. -/
inductive IoEvent where
  | writeChar (b : Byte)
  | readChar (answer : Option Byte)
  | readCharEcho (answer : Option Byte)
  | halt
  deriving DecidableEq, Repr

/-- An event on the trace port (R275 to R281). -/
inductive TraceEvent where
  | instructionStart (pc : Word) (instr : Variant)
  | registerWrite (idx : RegNum) (old new : Word)
  | memoryWrite (addr old new : Word)
  | conditionChange (new : Flags)
  | pcChange (old new : Word)
  | instructionEnd (pc : Word) (instr : Variant)
  deriving DecidableEq, Repr

/-- The whole machine. -/
@[ext]
structure State where
  /-- R0 to R7 (R20) -/
  regs : Vector Word 8
  /-- the program counter (R23) -/
  pc : Word
  /-- the condition flags (R25) -/
  cc : Flags
  /-- the 65536-word memory (R50) -/
  mem : Memory
  /-- the fault mark (R29): none, or the first fatal error -/
  faultMark : Option FatalError
  /-- the halted latch, which the IO value holds (R28; never cleared by a step, notes/assumptions/12.md) -/
  halted : Bool
  /-- the IO input stream (R32, R224): answers already queued, the next one first; when it is empty the next answer is
  drawn from the input oracle -/
  input : List (Option Byte)
  /-- how many answers have been drawn from `Config.inputOracle` (the model's own counter, notes/assumptions/2.md) -/
  drawn : Nat
  /-- the IO requests made so far, oldest first (R220; kept in State by DESIGN CHOICE, notes/assumptions/11.md) -/
  ioLog : List IoEvent
  /-- the trace events emitted so far, oldest first (R275; kept in State by DESIGN CHOICE, notes/assumptions/11.md) -/
  trace : List TraceEvent
  deriving DecidableEq, Repr

/-- Why a step has no successor. -/
inductive Fault where
  /-- Raised by `nextInstruction` when the fault mark is already set: the same error again, with no fetch and no change
  (R266). The step that RAISES a fatal error is not this: it is a next state with the mark set. Safe. -/
  | fatal (e : FatalError)
  /-- Raised by the meanings of PUTS and PUTSP (and of TRAP 0x22 and 0x24) when the scan never stops, because no memory
  word is zero (PUTS) or no memory byte is zero (PUTSP): the stuck state of R227 (notes/assumptions/8.md). Safe. -/
  | scanNeverStops
  deriving DecidableEq, Repr

/-- Why a step has no meaning. -/
inductive Refusal where
  /-- Raised by an arm of `exec` whose instruction has no meaning yet; no arm does. Safe. -/
  | notModelled (mnemonic : String)
  deriving DecidableEq, Repr

/-- The flag triple a value of reset_cc stands for (R33). -/
def resetFlags : ResetCc → Flags
  | .n => ⟨true, false, false⟩
  | .z => ⟨false, true, false⟩
  | .p => ⟨false, false, true⟩
  | .none => ⟨false, false, false⟩

namespace State

/-- Construction of an engine instance, new(io, observer), for given parameters (R33, R301): registers, flags and PC
from the parameters, memory with nothing listed (every word 0x0000, R51), no fault, a fresh IO value (latch clear,
nothing queued, no request made) and a fresh Observer. -/
def new (p : ResetParams) : State where
  regs := p.regs
  pc := p.pc
  cc := resetFlags p.cc
  mem := ⟨[]⟩
  faultMark := none
  halted := false
  input := []
  drawn := 0
  ioLog := []
  trace := []

/-- The machine right after reset, at the configured parameters (`Config.resetParams`, notes/assumptions/1.md). -/
def reset : State := new Config.resetParams

end State

end Sys2Proof.Machine
end

