-- ==== Sys2Proof/Machine/Flags.lean ====
section
/-! DEFINITION. The flag computations: what a result sets (spec/40_alu.md rule R120) and what BR tests
(spec/41_control.md rule R152). -/

namespace Sys2Proof.Machine

/-- The flags of a result: n, z, p from its signed reading (R120). -/
def flagsOf (v : Word) : Flags where
  n := v.getLsbD 15
  z := v == 0x0000#16
  p := !v.getLsbD 15 && v != 0x0000#16

/-- The BR condition: an OR of ANDs, not equality (R152). -/
def branchTaken (n z p : Bool) (cc : Flags) : Bool := (n && cc.n) || (z && cc.z) || (p && cc.p)

end Sys2Proof.Machine
end

