-- ==== Sys2Proof/Machine/Memory.lean ====
section
/-! DEFINITION. The memory: one array of 65536 words (spec/20_memory.md rules R50 to R63), kept as byte lanes. Word
reads and writes are built from byte reads and writes here, so the lane order is decided once (R55). -/

namespace Sys2Proof.Machine

/-- What a byte that is not listed reads as: memory is zero-initialised (R51). -/
def unlistedByte : Byte := 0#8

/-- One more than the largest byte key: 65536 words of two lanes (R50). -/
def byteKeys : Nat := 131072

/-- The byte at a key of a cell list. -/
def lookupCell : List Host.Cell → Nat → Byte
  | [], _ => unlistedByte
  | c :: rest, k => if c.1 = k then c.2 else lookupCell rest k

/-- Insert a cell before the first greater key. -/
def insertCell (k : Nat) (v : Byte) : List Host.Cell → List Host.Cell
  | [] => [(k, v)]
  | c :: rest => if k < c.1 then (k, v) :: c :: rest else c :: insertCell k v rest

/-- Remove a key. -/
def eraseCell (k : Nat) (cells : List Host.Cell) : List Host.Cell := cells.filter fun c => c.1 != k

namespace Memory

/-- The canonical form: keys strictly rising and below `byteKeys`, and no entry equal to what an unlisted byte reads
as. -/
def wf (m : Memory) : Bool :=
  decide (m.cells.Pairwise fun a b => a.1 < b.1) && m.cells.all fun c => decide (c.1 < byteKeys) && c.2 != unlistedByte

/-- The byte at a byte key. -/
def readByte (m : Memory) (k : Nat) : Byte := lookupCell m.cells k

/-- Write the byte at a byte key, keeping the canonical form. -/
def writeByte (m : Memory) (k : Nat) (v : Byte) : Memory :=
  ⟨if v = unlistedByte then eraseCell k m.cells else insertCell k v (eraseCell k m.cells)⟩

/-- The key of the low byte of the word at `a`. -/
def lowKey (a : Word) : Nat := 2 * a.toNat

/-- The key of the high byte of the word at `a`. -/
def highKey (a : Word) : Nat := 2 * a.toNat + 1

/-- mem[a] (R52): high byte :: low byte. -/
def readWord (m : Memory) (a : Word) : Word := m.readByte (highKey a) ++ m.readByte (lowKey a)

/-- mem[a] <- v (R52). -/
def writeWord (m : Memory) (a v : Word) : Memory :=
  (m.writeByte (lowKey a) (v.extractLsb' 0 8)).writeByte (highKey a) (v.extractLsb' 8 8)

end Memory

end Sys2Proof.Machine
end

