-- ==== Sys2Proof/Machine/Operands.lean ====
section
/-! DEFINITION. Operand assembly: extension and scaling of the immediate fields (spec/30_encoding.md rule R83,
spec/00_scope.md rules R10 and R11) and the effective addresses built from them (spec/42_load_store.md rules R180, R183,
R187; spec/41_control.md rules R150, R152, R155). Every sum is modulo 65536 (R59). The scalings follow the spec's text,
which is asymmetric on purpose (spec/91_not_in_source.md N14). -/

namespace Sys2Proof.Machine

/-- sext_N (R11): a field of n bits, its top bit copied into the high bits. -/
def sext {n : Nat} (f : BitVec n) : Word := f.signExtend 16

/-- zext_N (R11). -/
def zext {n : Nat} (f : BitVec n) : Word := f.zeroExtend 16

/-- sext_N(f) << 1 (R83): the scaled offsets of LDR, STR, LDI, STI, LEA and JSR. -/
def sextDoubled {n : Nat} (f : BitVec n) : Word := sext f <<< 1

/-- npc = pc + 1 modulo 65536 (R150). -/
def nextPc (pc : Word) : Word := pc + 1#16

/-- The target of a taken BR: npc + sext_9(offset9), not scaled (R152). -/
def branchTarget (pc : Word) (offset9 : BitVec 9) : Word := nextPc pc + sext offset9

/-- The target of JSR: npc + (sext_11(offset11) << 1) (R155). -/
def jsrTarget (pc : Word) (offset11 : BitVec 11) : Word := nextPc pc + sextDoubled offset11

/-- The address LEA forms: npc + (sext_9(offset9) << 1) (R187). -/
def leaAddress (pc : Word) (offset9 : BitVec 9) : Word := nextPc pc + sextDoubled offset9

/-- The word address of LDR, STR, LDI and STI: base + (sext_6(offset6) << 1) (R183). -/
def wordAddress (base : Word) (offset6 : BitVec 6) : Word := base + sextDoubled offset6

/-- The byte address b of LDB and STB: base + sext_6(offset6), no shift (R180). -/
def byteAddress (base : Word) (offset6 : BitVec 6) : Word := base + sext offset6

/-- The word that holds byte b: wa = b >> 1 (R180). -/
def wordOfByte (b : Word) : Word := b >>> 1

/-- The lane of byte b: b[0], false the low byte, true the high byte (R55, R180). -/
def laneOfByte (b : Word) : Bool := b.getLsbD 0

/-- The low byte w[7:0]. -/
def lowByte (w : Word) : Byte := w.extractLsb' 0 8

/-- The high byte w[15:8]. -/
def highByte (w : Word) : Byte := w.extractLsb' 8 8

/-- The byte of a word that a lane names (R55, R181). -/
def selectByte (lane : Bool) (w : Word) : Byte := if lane then highByte w else lowByte w

/-- The word with one lane replaced and the other kept (R57, R182). -/
def mergeByte (lane : Bool) (v : Byte) (w : Word) : Word := if lane then v ++ lowByte w else highByte w ++ v

/-! Results of the ALU (R121 to R127). -/

/-- ADD: modulo 65536, with no carry or overflow (R121, R128). -/
def aluAdd (a b : Word) : Word := a + b
/-- AND (R122). -/
def aluAnd (a b : Word) : Word := a &&& b
/-- XOR, and NOT as XOR with 0xFFFF (R123, R124). -/
def aluXor (a b : Word) : Word := a ^^^ b
/-- LSHF: zero fill from bit 0, bits past bit 15 lost (R125). -/
def shiftLeft (a : Word) (amount4 : BitVec 4) : Word := a <<< amount4.toNat
/-- RSHFL: zero fill from bit 15 (R126). -/
def shiftRightLogical (a : Word) (amount4 : BitVec 4) : Word := a >>> amount4.toNat
/-- RSHFA: sra16, sign fill (R10, R127). -/
def shiftRightArith (a : Word) (amount4 : BitVec 4) : Word := a.sshiftRight amount4.toNat

end Sys2Proof.Machine
end

