-- ==== Sys2Proof/Machine/Ops.lean ====
section
/-! DEFINITION. The named operations over the state that the instruction rules use (the primitives of spec/00_scope.md
rule R12): registers, PC, flags, the memory port, the trace port, the IO port, and raising a fatal error. -/

namespace Sys2Proof.Machine

/-- emit ev (R275): one event on the trace port, after the earlier ones. -/
def emit (ev : TraceEvent) (s : State) : State := { s with trace := s.trace ++ [ev] }

/-- x[i] (R21). No register is hardwired (R20). -/
def State.reg (s : State) (i : RegNum) : Word := s.regs[i.toNat]

/-- x[i] <- v (R21), with its event, even when the value is the same (R277). -/
def writeReg (i : RegNum) (v : Word) (s : State) : State :=
  { emit (.registerWrite i (s.reg i) v) s with regs := s.regs.set i.toNat v }

/-- pc <- t (R12). The pc_change event is the step's, not this operation's (R280). -/
def setPc (t : Word) (s : State) : State := { s with pc := t }

/-- pc <- npc (R150). -/
def advancePc (s : State) : State := setPc (nextPc s.pc) s

/-- setcc(v) (R120): condition_change only if the triple changes (R279). -/
def setcc (v : Word) (s : State) : State :=
  { (if flagsOf v = s.cc then s else emit (.conditionChange (flagsOf v)) s) with cc := flagsOf v }

/-- The end of every flag-setting instruction: x[DR] <- r, setcc(r), pc <- npc (R121 to R127, R181, R183, R185, R187). -/
def writeResult (dr : RegNum) (r : Word) (s : State) : State := advancePc (setcc r (writeReg dr r s))

/-- MemRead(a, 1) (R52): no event, no side effect (R61). -/
def memRead (a : Word) (s : State) : Word := s.mem.readWord a

/-- MemWrite(a, 1, v) (R52), with its event, even when the word is unchanged (R278). -/
def memWrite (a v : Word) (s : State) : State :=
  { emit (.memoryWrite a (memRead a s) v) s with mem := s.mem.writeWord a v }

/-- The instruction fetch: MemRead(pc, 1) (R65, R306). -/
def fetchWord (s : State) : Word := memRead s.pc s

/-! ### The IO port (R220) -/

/-- Io.writeChar for each code of a list, in order. -/
def ioWriteChars (bs : List Byte) (s : State) : State := { s with ioLog := s.ioLog ++ bs.map .writeChar }

/-- The answer the IO's input stream gives next, none or an 8-bit code: the queued one, else the input oracle's
(R224). DESIGN CHOICE (notes/assumptions/16.md): every engine instance (R274) draws from the one oracle, from index 0. -/
def nextAnswer (s : State) : Option Byte :=
  match s.input with
  | a :: _ => a
  | [] => Config.inputOracle s.drawn

/-- The input stream after one answer has been taken from it. -/
def takeAnswer (s : State) : State :=
  match s.input with
  | _ :: rest => { s with input := rest }
  | [] => { s with drawn := s.drawn + 1 }

/-- Io.readChar(): the state after the request; its answer is `nextAnswer`. Never blocks (R220). -/
def ioReadChar (s : State) : State := { takeAnswer s with ioLog := s.ioLog ++ [.readChar (nextAnswer s)] }

/-- Io.readCharEcho(): as readChar; the prompt and the echo are the IO's own (R229). -/
def ioReadCharEcho (s : State) : State := { takeAnswer s with ioLog := s.ioLog ++ [.readCharEcho (nextAnswer s)] }

/-- Io.halt() (R231): sets the halted latch. -/
def ioHalt (s : State) : State := { s with halted := true, ioLog := s.ioLog ++ [.halt] }

/-- Io.isHalted() (R28). -/
def ioIsHalted (s : State) : Bool := s.halted

/-- The console output of one request, with the spec's default IO (R229): writeChar outputs its code; readCharEcho
outputs IN_PROMPT and then echoes the character if one came. -/
def consoleOf : IoEvent → List Byte
  | .writeChar b => [b]
  | .readChar _ => []
  | .readCharEcho answer => Config.inPrompt ++ answer.toList
  | .halt => []

/-- The characters output so far, computed from the requests (stored once, in `ioLog`). -/
def State.console (s : State) : List Byte := s.ioLog.flatMap consoleOf

/-- x[0] <- zext_8(b) if a character arrived; otherwise R0 is left unmodified (R223, R228). -/
def receiveChar (answer : Option Byte) (s : State) : State :=
  match answer with
  | some b => writeReg 0#3 (zext b) s
  | none => s

/-! ### Fatal errors -/

/-- raise E(info) (R264): the error is recorded in the fault mark; registers, flags, memory and PC keep their values
(the PC keeps its pre-fault value). It saves nothing else in the machine and control goes to the host, not to a handler
(R268). There is no return from it: RTI always faults (R269) and only a new engine instance clears the mark (R266). -/
def raiseFatal (e : FatalError) (s : State) : State := { s with faultMark := some e }

/-- The spec's numeric codes of the errors, 0 for none (R260). -/
def errorCode : Option FatalError → Nat
  | none => 0
  | some (.decodeError _ _ _) => 1
  | some (.unimplementedInstruction _ _) => 2
  | some .invalidMemoryAccess => 3

end Sys2Proof.Machine
end

