-- ==== Sys2Proof/Machine/Alu.lean ====
section
/-! DEFINITION. The two-operand ALU instructions and NOT (spec/40_alu.md rules R121 to R124). Sources are read before
DR is written (R129). -/

namespace Sys2Proof.Machine

/-- R121, register form. -/
def execAdd (dr sr1 sr2 : RegNum) (s : State) : Host.Outcome State Fault Refusal :=
  .next (writeResult dr (aluAdd (s.reg sr1) (s.reg sr2)) s)

/-- R121, immediate form. -/
def execAddImm (dr sr1 : RegNum) (imm5 : BitVec 5) (s : State) : Host.Outcome State Fault Refusal :=
  .next (writeResult dr (aluAdd (s.reg sr1) (sext imm5)) s)

/-- R122, register form. -/
def execAnd (dr sr1 sr2 : RegNum) (s : State) : Host.Outcome State Fault Refusal :=
  .next (writeResult dr (aluAnd (s.reg sr1) (s.reg sr2)) s)

/-- R122, immediate form. -/
def execAndImm (dr sr1 : RegNum) (imm5 : BitVec 5) (s : State) : Host.Outcome State Fault Refusal :=
  .next (writeResult dr (aluAnd (s.reg sr1) (sext imm5)) s)

/-- R123, register form. -/
def execXor (dr sr1 sr2 : RegNum) (s : State) : Host.Outcome State Fault Refusal :=
  .next (writeResult dr (aluXor (s.reg sr1) (s.reg sr2)) s)

/-- R123, immediate form. -/
def execXorImm (dr sr1 : RegNum) (imm5 : BitVec 5) (s : State) : Host.Outcome State Fault Refusal :=
  .next (writeResult dr (aluXor (s.reg sr1) (sext imm5)) s)

/-- R124: x[SR] ^ 0xFFFF. -/
def execNot (dr sr : RegNum) (s : State) : Host.Outcome State Fault Refusal :=
  .next (writeResult dr (aluXor (s.reg sr) 0xFFFF#16) s)

end Sys2Proof.Machine
end

