-- ==== Sys2Proof/Machine/Control.lean ====
section
/-! DEFINITION. Control transfer (spec/41_control.md rules R150 to R160), in the closed forms of the final PC. No
control instruction writes the flags. -/

namespace Sys2Proof.Machine

/-- The call of JSR and JSRR: x[7] <- npc, pc <- t, with t computed before R7 is written (R155, R156). -/
def callTo (t : Word) (s : State) : State := setPc t (writeReg 7#3 (nextPc s.pc) s)

/-- R152. -/
def execBr (n z p : Bool) (offset9 : BitVec 9) (s : State) : Host.Outcome State Fault Refusal :=
  .next (if branchTaken n z p s.cc then setPc (branchTarget s.pc offset9) s else advancePc s)

/-- R153. -/
def execJmp (baseR : RegNum) (s : State) : Host.Outcome State Fault Refusal := .next (setPc (s.reg baseR) s)

/-- R154: pc <- x[7]. -/
def execRet (s : State) : Host.Outcome State Fault Refusal := .next (setPc (s.reg 7#3) s)

/-- R155. -/
def execJsr (offset11 : BitVec 11) (s : State) : Host.Outcome State Fault Refusal :=
  .next (callTo (jsrTarget s.pc offset11) s)

/-- R156: the base is read before R7 is written. -/
def execJsrr (baseR : RegNum) (s : State) : Host.Outcome State Fault Refusal := .next (callTo (s.reg baseR) s)

end Sys2Proof.Machine
end

