-- ==== Sys2Proof/Machine/LoadStore.lean ====
section
/-! DEFINITION. Loads, stores and LEA (spec/42_load_store.md rules R180 to R190). Registers are read before any memory
access or register write (R188). No access can fault (R53). -/

namespace Sys2Proof.Machine

/-- R181: the selected byte, sign-extended. -/
def execLdb (dr baseR : RegNum) (offset6 : BitVec 6) (s : State) : Host.Outcome State Fault Refusal :=
  let b := byteAddress (s.reg baseR) offset6
  .next (writeResult dr (sext (selectByte (laneOfByte b) (memRead (wordOfByte b) s))) s)

/-- R182: read the word, replace the selected byte by SR[7:0], write the word back. -/
def execStb (sr baseR : RegNum) (offset6 : BitVec 6) (s : State) : Host.Outcome State Fault Refusal :=
  let b := byteAddress (s.reg baseR) offset6
  let wa := wordOfByte b
  .next (advancePc (memWrite wa (mergeByte (laneOfByte b) (lowByte (s.reg sr)) (memRead wa s)) s))

/-- R183. -/
def execLdr (dr baseR : RegNum) (offset6 : BitVec 6) (s : State) : Host.Outcome State Fault Refusal :=
  .next (writeResult dr (memRead (wordAddress (s.reg baseR) offset6) s) s)

/-- R184. -/
def execStr (sr baseR : RegNum) (offset6 : BitVec 6) (s : State) : Host.Outcome State Fault Refusal :=
  .next (advancePc (memWrite (wordAddress (s.reg baseR) offset6) (s.reg sr) s))

/-- R185: the pointer word is used unscaled. -/
def execLdi (dr baseR : RegNum) (offset6 : BitVec 6) (s : State) : Host.Outcome State Fault Refusal :=
  .next (writeResult dr (memRead (memRead (wordAddress (s.reg baseR) offset6) s) s) s)

/-- R186: the pointer is read before the final access. -/
def execSti (sr baseR : RegNum) (offset6 : BitVec 6) (s : State) : Host.Outcome State Fault Refusal :=
  .next (advancePc (memWrite (memRead (wordAddress (s.reg baseR) offset6) s) (s.reg sr) s))

/-- R187: sets the flags and accesses no memory. -/
def execLea (dr : RegNum) (offset9 : BitVec 9) (s : State) : Host.Outcome State Fault Refusal :=
  .next (writeResult dr (leaAddress s.pc offset9) s)

end Sys2Proof.Machine
end

