-- ==== Sys2Proof/Machine/Shift.lean ====
section
/-! DEFINITION. The shifts (spec/40_alu.md rules R125 to R127). -/

namespace Sys2Proof.Machine

/-- R125. -/
def execLshf (dr sr : RegNum) (amount4 : BitVec 4) (s : State) : Host.Outcome State Fault Refusal :=
  .next (writeResult dr (shiftLeft (s.reg sr) amount4) s)

/-- R126. -/
def execRshfl (dr sr : RegNum) (amount4 : BitVec 4) (s : State) : Host.Outcome State Fault Refusal :=
  .next (writeResult dr (shiftRightLogical (s.reg sr) amount4) s)

/-- R127. -/
def execRshfa (dr sr : RegNum) (amount4 : BitVec 4) (s : State) : Host.Outcome State Fault Refusal :=
  .next (writeResult dr (shiftRightArith (s.reg sr) amount4) s)

end Sys2Proof.Machine
end

