-- ==== Sys2Proof/Machine/Trap.lean ====
section
/-! DEFINITION. The TRAP services, the TRAP-vector router and RTI (spec/43_trap_system.md rules R220 to R235). A
service runs inside the one step; no service writes the flags, R7 or memory (R221, R233). -/

namespace Sys2Proof.Machine

/-- How many words a scan can read before it has read them all (R50). DEDUCED (notes/assumptions/8.md): a scan that has
not stopped by then never stops. -/
def scanBound : Nat := 65536

/-- The PUTS loop from word address `a` (R226): the characters written up to the zero word. `none` when `fuel` words
hold no zero word; with `scanBound` of fuel that means no word of memory is zero, and the loop never ends (R227). -/
def putsScan (m : Memory) : Nat → Word → Option (List Byte)
  | 0, _ => none
  | fuel + 1, a =>
    let w := m.readWord a
    if w = 0x0000#16 then some []
    else (putsScan m fuel (a + 1#16)).map (lowByte w :: ·)

/-- The PUTSP loop from word address `a` (R230): low byte, then high byte, stopping at the first zero byte. `none` as
for `putsScan`. -/
def putspScan (m : Memory) : Nat → Word → Option (List Byte)
  | 0, _ => none
  | fuel + 1, a =>
    let w := m.readWord a
    if lowByte w = 0x00#8 then some []
    else if highByte w = 0x00#8 then some [lowByte w]
    else (putspScan m fuel (a + 1#16)).map fun bs => lowByte w :: highByte w :: bs

/-- Write the characters of a scan, or get stuck if it never stops (R227). -/
def finishScan (chars : Option (List Byte)) (s : State) : Host.Outcome State Fault Refusal :=
  match chars with
  | some bs => .next (advancePc (ioWriteChars bs s))
  | none => .fault .scanNeverStops

/-- GETC (R223). -/
def serviceGetc (s : State) : Host.Outcome State Fault Refusal :=
  .next (advancePc (receiveChar (nextAnswer s) (ioReadChar s)))

/-- OUT (R225): the low byte of R0, even when it is zero. -/
def serviceOut (s : State) : Host.Outcome State Fault Refusal :=
  .next (advancePc (ioWriteChars [lowByte (s.reg 0#3)] s))

/-- PUTS (R226). -/
def servicePuts (s : State) : Host.Outcome State Fault Refusal := finishScan (putsScan s.mem scanBound (s.reg 0#3)) s

/-- IN (R228). -/
def serviceIn (s : State) : Host.Outcome State Fault Refusal :=
  .next (advancePc (receiveChar (nextAnswer s) (ioReadCharEcho s)))

/-- PUTSP (R230). -/
def servicePutsp (s : State) : Host.Outcome State Fault Refusal := finishScan (putspScan s.mem scanBound (s.reg 0#3)) s

/-- HALT (R231): the step still completes. -/
def serviceHalt (s : State) : Host.Outcome State Fault Refusal := .next (advancePc (ioHalt s))

/-- An unmapped vector: nothing but the PC increment (R232). -/
def serviceNone (s : State) : Host.Outcome State Fault Refusal := .next (advancePc s)

/-- The dispatch table (R221, R222). -/
def routeTrap (vector8 : BitVec 8) (s : State) : Host.Outcome State Fault Refusal :=
  if vector8 = 0x20#8 then serviceGetc s
  else if vector8 = 0x21#8 then serviceOut s
  else if vector8 = 0x22#8 then servicePuts s
  else if vector8 = 0x23#8 then serviceIn s
  else if vector8 = 0x24#8 then servicePutsp s
  else if vector8 = 0x25#8 then serviceHalt s
  else serviceNone s

/-- R221, R232. A canonical term has an unmapped vector; the router is whole all the same. -/
def execTrap (vector8 : BitVec 8) (s : State) : Host.Outcome State Fault Refusal := routeTrap vector8 s

/-- R223: TRAP 0x20. -/
def execGetc (s : State) : Host.Outcome State Fault Refusal := routeTrap 0x20#8 s

/-- R225: TRAP 0x21. -/
def execOut (s : State) : Host.Outcome State Fault Refusal := routeTrap 0x21#8 s

/-- R226: TRAP 0x22. -/
def execPuts (s : State) : Host.Outcome State Fault Refusal := routeTrap 0x22#8 s

/-- R228: TRAP 0x23. -/
def execIn (s : State) : Host.Outcome State Fault Refusal := routeTrap 0x23#8 s

/-- R230: TRAP 0x24. -/
def execPutsp (s : State) : Host.Outcome State Fault Refusal := routeTrap 0x24#8 s

/-- R231: TRAP 0x25. -/
def execHalt (s : State) : Host.Outcome State Fault Refusal := routeTrap 0x25#8 s

/-- R235: raise UnimplementedInstruction(pc, w), w the fetched word. DEDUCED (notes/assumptions/6.md): no write comes
between the fetch and the raise, so w is the word memory holds at the PC. The next state has the fault mark set and is
otherwise unchanged (R264); every later step is refused by the mark (R266). -/
def execRti (s : State) : Host.Outcome State Fault Refusal :=
  .next (raiseFatal (.unimplementedInstruction s.pc (fetchWord s)) s)

end Sys2Proof.Machine
end

