-- ==== Sys2Proof/Machine/Engine.lean ====
section
/-! DEFINITION. One step of the engine: `next_instruction` (spec/70_reset_and_hazards.md rule R306), with the trace
events of a step (spec/60_exceptions.md rules R276, R280 to R282), what it returns to the host, and `run` (R307).
`strict` is STRICT_UNUSED_BITS (spec/30_encoding.md rule R96). -/

namespace Sys2Proof.Machine

/-- The events at the end of an instruction that started at `p` (R306): pc_change if the PC differs (R280), then
instruction_end (R281). A step that raised a fatal error emits neither (R282). -/
def endInstruction (p : Word) (v : Variant) (t : State) : State :=
  match t.faultMark with
  | some _ => t
  | none => emit (.instructionEnd p v) (if t.pc = p then t else emit (.pcChange p t.pc) t)

/-- A decoded instruction, from its instruction_start to its instruction_end (R306, R282). DESIGN CHOICE
(notes/assumptions/17.md): the outcome of a scan that never stops carries no state, so the instruction_start (R276) and the
characters of that step are not recorded. -/
def runInstruction (i : Instr) (s : State) : Host.Outcome State Fault Refusal :=
  match exec i (emit (.instructionStart s.pc i.variant) s) with
  | .next t => .next (endInstruction s.pc i.variant t)
  | .fault r => .fault r
  | .refused r => .refused r

/-- next_instruction() (R306), in the order of R267: the fault mark, the halted latch, DecodeError, then the
instruction. A step that raises a fatal error answers the state with the mark set (notes/assumptions/5.md). -/
def nextInstruction (strict : Bool) (s : State) : Host.Outcome State Fault Refusal :=
  match s.faultMark with
  | some e => .fault (.fatal e)
  | none =>
    if ioIsHalted s then .next s
    else
      match decode strict (fetchWord s) with
      | .error reason => .next (raiseFatal (.decodeError s.pc (fetchWord s) reason) s)
      | .ok i => runInstruction i s

/-- What a call of next_instruction gives the host (R306): Ok(Executed), Ok(NotExecuted) or Err(e); or it never
returns, on a scan that never stops (R227, R308 case 4). -/
inductive StepReturn where
  | executed
  | notExecuted
  | err (e : FatalError)
  | hang
  deriving DecidableEq, Repr

/-- The return value of the call of next_instruction that starts in `s`. -/
def stepReturn (strict : Bool) (s : State) : StepReturn :=
  match s.faultMark with
  | some e => .err e
  | none =>
    if ioIsHalted s then .notExecuted
    else
      match nextInstruction strict s with
      | .next t =>
        match t.faultMark with
        | some e => .err e
        | none => .executed
      | .fault _ => .hang
      | .refused _ => .hang -- no arm of exec refuses

/-- What `run` gives the host (R307), with the state it leaves. -/
inductive RunReturn where
  | ok (count : Nat) (s : State)
  | err (e : FatalError) (s : State)
  | hang
  deriving DecidableEq, Repr

/-- One more executed instruction in the count; an error comes back without a count (R307). -/
def RunReturn.countOne : RunReturn → RunReturn
  | .ok count s => .ok (count + 1) s
  | .err e s => .err e s
  | .hang => .hang

/-- run(max_instructions) (R307): the latch is tested first, then one step is taken and counted. With both the latch and
the mark set (no run reaches that) it follows this pseudocode (notes/assumptions/13.md). -/
def run (strict : Bool) : Nat → State → RunReturn
  | 0, s => .ok 0 s
  | max + 1, s =>
    if ioIsHalted s then .ok 0 s
    else
      match nextInstruction strict s with
      | .next t =>
        match t.faultMark with
        | some e => .err e t
        | none => (run strict max t).countOne
      | .fault (.fatal e) => .err e s
      | .fault .scanNeverStops => .hang
      | .refused _ => .hang -- no arm of exec refuses

end Sys2Proof.Machine
end

