-- ==== Sys2Proof/Machine/HostPort.lean ====
section
/-! DEFINITION. The host port (spec/70_reset_and_hazards.md rules R300 to R305, spec/20_memory.md rule R60): what the
host may do between steps. Construction is `State.new`; stepping and running are in Engine.lean. -/

namespace Sys2Proof.Machine

/-- The bulk write of `load_program`: word i at (origin + i) mod 65536, in order, so a later word wins (R302). -/
def loadWords : List Word → Word → Memory → Memory
  | [], _, m => m
  | w :: rest, a, m => loadWords rest (a + 1#16) (m.writeWord a w)

/-- load_program(words, origin) (R302): memory and the PC; nothing else changes and no event is emitted. -/
def loadProgram (words : List Word) (origin : Word) (s : State) : State :=
  { s with mem := loadWords words origin s.mem, pc := origin }

/-- debug_write(a, v) (R60): one word, no event. -/
def debugWrite (a v : Word) (s : State) : State := { s with mem := s.mem.writeWord a v }

/-- The environment queues one answer for the IO's input stream (R224: what a read receives is environment input). -/
def queueInput (answer : Option Byte) (s : State) : State := { s with input := s.input ++ [answer] }

/-! The accessors (R304): they read and change nothing. -/

/-- The PC. -/
def readPc (s : State) : Word := s.pc
/-- A register. -/
def readRegister (i : RegNum) (s : State) : Word := s.reg i
/-- The flag triple. -/
def readFlags (s : State) : Flags := s.cc
/-- A memory word. -/
def readMemory (a : Word) (s : State) : Word := memRead a s

/-- Store an instruction word where the next step fetches it, and clear the two marks under which a step fetches
nothing (R306): the memory word at the PC, the fault mark and the halted latch. It stands for a program put into memory
from outside (R302, R309). -/
def placeFetchWord (w : Word) (s : State) : State := { debugWrite s.pc w s with faultMark := none, halted := false }

end Sys2Proof.Machine
end

