-- ==== Sys2Proof/Machine/Step.lean ====
section
/-! DEFINITION. The fixed names of one step: `step` is next_instruction (spec/70_reset_and_hazards.md rule R306) under
the configured STRICT_UNUSED_BITS. -/

namespace Sys2Proof.Machine

/-- One call of next_instruction (R306). -/
def step (s : State) : Host.Outcome State Fault Refusal := nextInstruction Config.strictUnusedBits s

/-- `s` with an opcode-table word stored where `step` fetches its next instruction (notes/assumptions/7.md). -/
def State.withFetchWord (s : State) (nbits w : Nat) : State := placeFetchWord (tableWord nbits w) s

end Sys2Proof.Machine
end

