-- ==== Sys2Proof/Safety.lean ====
section
/-! DEFINITION. The terms that claims use: signed readings of words and fields (spec/00_scope.md rule R10), the flag law
(spec/40_alu.md rule R120), what an instruction leaves unchanged, the tables of which instruction writes what
(spec/10_state.md rules R22 and R26), the invariant of the machine, and which states a run can reach. -/

namespace Sys2Proof.Machine

/-! ### Numbers (R9, R10) -/

/-- signed16(v): v if v < 0x8000, else v - 65536 (R10). -/
def signed16 (v : Word) : Int := if v.toNat < 0x8000 then v.toNat else (v.toNat : Int) - 65536

/-- The two's-complement reading of an n-bit field (R11). -/
def signedField {n : Nat} (f : BitVec n) : Int := if 2 * f.toNat < 2 ^ n then f.toNat else (f.toNat : Int) - 2 ^ n

/-- w[hi:lo] as an unsigned number (R9). -/
def fieldValue (w : Word) (hi lo : Nat) : Nat := w.toNat / 2 ^ lo % 2 ^ (hi - lo + 1)

/-- `w` is the exact integer `k` taken modulo 65536 (R10, R59). -/
def IsMod16 (w : Word) (k : Int) : Prop := (w.toNat : Int) = k % 65536

/-! ### Flags -/

/-- The flag law for a result (R120): n, z, p are its signed comparisons with 0. -/
def FlagLaw (cc : Flags) (r : Word) : Prop :=
  (cc.n = true ↔ signed16 r < 0) ∧ (cc.z = true ↔ signed16 r = 0) ∧ (cc.p = true ↔ 0 < signed16 r)

/-- How many flags are true. -/
def Flags.count (cc : Flags) : Nat := cc.n.toNat + cc.z.toNat + cc.p.toNat

/-! ### Frames -/

/-- Every register outside `rs` keeps its value. -/
def SameRegsBut (rs : List RegNum) (s t : State) : Prop := ∀ i, i ∉ rs → t.reg i = s.reg i

/-- Every byte of memory reads as before. -/
def SameBytes (s t : State) : Prop := ∀ k, t.mem.readByte k = s.mem.readByte k

/-- Every byte outside the word at `a` reads as before. -/
def SameBytesButWord (a : Word) (s t : State) : Prop :=
  ∀ k, k ≠ Memory.lowKey a → k ≠ Memory.highKey a → t.mem.readByte k = s.mem.readByte k

/-- The fault mark and everything of the console are as before. -/
structure SamePorts (s t : State) : Prop where
  faultMark : t.faultMark = s.faultMark
  halted : t.halted = s.halted
  input : t.input = s.input
  drawn : t.drawn = s.drawn
  ioLog : t.ioLog = s.ioLog

/-- The effect of a flag-setting instruction with result `r` (R121 to R127, R181, R183, R185, R187; events R130, R190):
DR holds r, the flags are r's, the PC is the next address, the two events are emitted, and all else is unchanged. -/
structure ResultWritten (s t : State) (dr : RegNum) (r : Word) : Prop where
  value : t.reg dr = r
  others : SameRegsBut [dr] s t
  flags : FlagLaw t.cc r
  pc : IsMod16 t.pc (s.pc.toNat + 1)
  bytes : SameBytes s t
  ports : SamePorts s t
  trace : t.trace = s.trace ++
    (.registerWrite dr (s.reg dr) r :: if t.cc = s.cc then [] else [.conditionChange t.cc])

/-- The effect of a store of `v` to the word at `a` (R182, R184, R186; event R190): that word holds v, the PC is the
next address, the event is emitted, and all else is unchanged. -/
structure WordStored (s t : State) (a v : Word) : Prop where
  value : t.mem.readWord a = v
  otherBytes : SameBytesButWord a s t
  regs : SameRegsBut [] s t
  flags : t.cc = s.cc
  pc : IsMod16 t.pc (s.pc.toNat + 1)
  ports : SamePorts s t
  trace : t.trace = s.trace ++ [.memoryWrite a (s.mem.readWord a) v]

/-- What a control transfer that writes no register leaves unchanged: everything but the PC (R152 to R154). -/
structure OnlyPcChanged (s t : State) : Prop where
  regs : SameRegsBut [] s t
  flags : t.cc = s.cc
  bytes : SameBytes s t
  ports : SamePorts s t
  trace : t.trace = s.trace

/-- The effect of a TRAP service that only makes IO requests (R225, R226, R230, R231; events R234): the PC is the next
address and the requests are recorded; registers, flags, memory, fault mark, input stream and trace are unchanged. -/
structure OnlyRequested (s t : State) (requests : List IoEvent) : Prop where
  ioLog : t.ioLog = s.ioLog ++ requests
  pc : IsMod16 t.pc (s.pc.toNat + 1)
  regs : SameRegsBut [] s t
  flags : t.cc = s.cc
  bytes : SameBytes s t
  faultMark : t.faultMark = s.faultMark
  input : t.input = s.input
  drawn : t.drawn = s.drawn
  trace : t.trace = s.trace

/-! ### Which instruction does what (R22, R26) -/

/-- The flag-setting instructions (R26). -/
def flagSetting : Instr → Bool
  | .add _ _ _ | .addImm _ _ _ | .and _ _ _ | .andImm _ _ _ | .xor _ _ _ | .xorImm _ _ _ | .not _ _
  | .lshf _ _ _ | .rshfl _ _ _ | .rshfa _ _ _ | .ldb _ _ _ | .ldr _ _ _ | .ldi _ _ _ | .lea _ _ => true
  | .br _ _ _ _ | .jmp _ | .ret | .jsr _ | .jsrr _ | .stb _ _ _ | .str _ _ _ | .sti _ _ _ | .trap _ | .getc
  | .out | .puts | .inn | .putsp | .halt | .rti => false

/-- The register column "register written" of R22. GETC and IN write R0 only when a character arrives. -/
def writtenRegs : Instr → List RegNum
  | .add dr _ _ | .addImm dr _ _ | .and dr _ _ | .andImm dr _ _ | .xor dr _ _ | .xorImm dr _ _ | .not dr _
  | .lshf dr _ _ | .rshfl dr _ _ | .rshfa dr _ _ | .ldb dr _ _ | .ldr dr _ _ | .ldi dr _ _ | .lea dr _ => [dr]
  | .jsr _ | .jsrr _ => [7#3]
  | .getc | .inn => [0#3]
  | .br _ _ _ _ | .jmp _ | .ret | .stb _ _ _ | .str _ _ _ | .sti _ _ _ | .trap _ | .out | .puts | .putsp
  | .halt | .rti => []

/-- The column "registers read" of R22. -/
def readRegs : Instr → List RegNum
  | .add _ sr1 sr2 | .and _ sr1 sr2 | .xor _ sr1 sr2 => [sr1, sr2]
  | .addImm _ sr1 _ | .andImm _ sr1 _ | .xorImm _ sr1 _ => [sr1]
  | .not _ sr | .lshf _ sr _ | .rshfl _ sr _ | .rshfa _ sr _ => [sr]
  | .jmp baseR | .jsrr baseR => [baseR]
  | .ret => [7#3]
  | .ldb _ baseR _ | .ldr _ baseR _ | .ldi _ baseR _ => [baseR]
  | .stb sr baseR _ | .str sr baseR _ | .sti sr baseR _ => [baseR, sr]
  | .out | .puts | .putsp => [0#3]
  | .br _ _ _ _ | .jsr _ | .lea _ _ | .trap _ | .getc | .inn | .halt | .rti => []

/-- The stores: the instructions that write memory (R54). -/
def storing : Instr → Bool
  | .stb _ _ _ | .str _ _ _ | .sti _ _ _ => true
  | .add _ _ _ | .addImm _ _ _ | .and _ _ _ | .andImm _ _ _ | .xor _ _ _ | .xorImm _ _ _ | .not _ _
  | .lshf _ _ _ | .rshfl _ _ _ | .rshfa _ _ _ | .ldb _ _ _ | .ldr _ _ _ | .ldi _ _ _ | .lea _ _
  | .br _ _ _ _ | .jmp _ | .ret | .jsr _ | .jsrr _ | .trap _ | .getc | .out | .puts | .inn | .putsp | .halt
  | .rti => false

/-- The IO requests an instruction makes, by R222: none outside the TRAP services. -/
def usesConsole : Instr → Bool
  | .getc | .out | .puts | .inn | .putsp | .halt => true
  | .add _ _ _ | .addImm _ _ _ | .and _ _ _ | .andImm _ _ _ | .xor _ _ _ | .xorImm _ _ _ | .not _ _
  | .lshf _ _ _ | .rshfl _ _ _ | .rshfa _ _ _ | .ldb _ _ _ | .stb _ _ _ | .ldr _ _ _ | .str _ _ _
  | .ldi _ _ _ | .sti _ _ _ | .lea _ _ | .br _ _ _ _ | .jmp _ | .ret | .jsr _ | .jsrr _ | .trap _ | .rti => false

/-! ### Safe states -/

/-- No fault, not halted: the next step fetches (R306). -/
def Running (s : State) : Prop := s.faultMark = none ∧ s.halted = false

/-- The machine's invariant: memory is in canonical form; the flags are mutually exclusive (R25, R27: at most one is
true); and the fault mark and the halted latch are never both set, since neither lets a step run (R306). -/
structure Inv (s : State) : Prop where
  memory : s.mem.wf = true
  flags : s.cc.count ≤ 1
  oneEnd : s.faultMark = none ∨ s.halted = false

/-- A safe step: it has a successor and raised no fatal error (R308: neither "faulted" nor "hang"). -/
def SafeStep (strict : Bool) (s : State) : Prop := ∃ t, nextInstruction strict s = .next t ∧ t.faultMark = none

/-- The states a machine can be in: constructed with any parameters, then any steps and host operations (R34). -/
inductive Reachable (strict : Bool) : State → Prop
  | new (p : ResetParams) : Reachable strict (State.new p)
  | step {s t : State} : Reachable strict s → nextInstruction strict s = .next t → Reachable strict t
  | load {s : State} (words : List Word) (origin : Word) : Reachable strict s → Reachable strict (loadProgram words origin s)
  | poke {s : State} (a v : Word) : Reachable strict s → Reachable strict (debugWrite a v s)
  | queue {s : State} (answer : Option Byte) : Reachable strict s → Reachable strict (queueInput answer s)

/-! ### Changes of one part of a state, for claims that compare two runs -/

/-- The same machine with one register holding another value (no event). -/
def withReg (r : RegNum) (v : Word) (s : State) : State := { s with regs := s.regs.set r.toNat v }

/-- The same machine with earlier events before its trace. -/
def withEarlierTrace (tr : List TraceEvent) (s : State) : State := { s with trace := tr ++ s.trace }

/-- The same machine with other flags (no event). -/
def withFlags (cc : Flags) (s : State) : State := { s with cc := cc }

/-- A condition_change event. -/
def TraceEvent.isConditionChange : TraceEvent → Bool
  | .conditionChange _ => true
  | .instructionStart _ _ | .registerWrite _ _ _ | .memoryWrite _ _ _ | .pcChange _ _ | .instructionEnd _ _ => false

/-- A state with its flags and its condition_change events left out (setcc compares the old flags only to emit that
event, R120). -/
def withoutFlags (s : State) : State :=
  { s with cc := ⟨false, false, false⟩, trace := s.trace.filter fun ev => !ev.isConditionChange }

/-- Apply a change to the next state of an outcome. -/
def mapNext (f : State → State) : Host.Outcome State Fault Refusal → Host.Outcome State Fault Refusal
  | .next t => .next (f t)
  | .fault r => .fault r
  | .refused r => .refused r

end Sys2Proof.Machine
end

