-- ==== Sys2Proof/Certificates/Slice0/Obligations.lean ====
section
/-! DEFINITION. The statements for the provers. Each docstring names the rules of spec/ it formalises. -/

open Sys2Proof Sys2Proof.Machine

/-! ### Decoding and encoding -/

/-- Words written out from the formats of R81 and the vectors of spec/95_test_vectors.md E9 and 2.1. -/
def Obligations.SpecWordsDecode : Prop :=
  decode false 0b0001_001_010_1_11101#16 = .ok (.addImm 1 2 0b11101#5) ∧
  decode false 0b1001_101_110_0_00_111#16 = .ok (.xor 5 6 7) ∧
  decode false 0b1101_001_010_1_1_0100#16 = .ok (.rshfa 1 2 4) ∧
  decode false 0b0000_0_1_0_000000001#16 = .ok (.br false true false 1) ∧
  decode false 0b0100_1_10000000000#16 = .ok (.jsr 0b10000000000#11) ∧
  decode false 0b1100_111_011_111111#16 = .ok (.jmp 3) ∧
  decode false 0b0010_111_111_100000#16 = .ok (.ldb 7 7 0b100000#6) ∧
  decode false 0b1011_100_101_100000#16 = .ok (.sti 4 5 0b100000#6) ∧
  decode false 0b1111_0000_00100101#16 = .ok .halt ∧
  decode false 0b1111_0000_10011001#16 = .ok (.trap 0x99) ∧
  decode true 0b1000_111111111111#16 = .error .nonzeroUnusedBits

/-- R100, both directions: decode(encode(x)) = x for every constructible x; encode(decode(w)) clears the unused bits of w,
so it is w exactly when they are all zero. -/
def Obligations.RoundTripLaw : Prop :=
  (∀ (strict : Bool) (i : Instr), i.wellFormed = true → decode strict (encode i) = .ok i) ∧
  (∀ (w : Word) (i : Instr), decode false w = .ok i →
    encode i = w &&& ~~~ unusedMask w ∧ (encode i = w ↔ unusedBits w = 0#16))

/-- R92: the opcode map and the selection within each family, with every field read as R9 reads w[hi:lo]. -/
def Obligations.DecoderReadsTheFieldsOfEachFamily : Prop :=
  ∀ w : Word,
    let f := fieldValue w
    let dr : RegNum := BitVec.ofNat 3 (f 11 9)
    let br : RegNum := BitVec.ofNat 3 (f 8 6)
    let sr2 : RegNum := BitVec.ofNat 3 (f 2 0)
    let imm5 := BitVec.ofNat 5 (f 4 0)
    let off6 := BitVec.ofNat 6 (f 5 0)
    let off9 := BitVec.ofNat 9 (f 8 0)
    let amt := BitVec.ofNat 4 (f 3 0)
    let vec := BitVec.ofNat 8 (f 7 0)
    (f 15 12 = 0b0001 → f 5 5 = 0 → decode false w = .ok (.add dr br sr2)) ∧
    (f 15 12 = 0b0001 → f 5 5 = 1 → decode false w = .ok (.addImm dr br imm5)) ∧
    (f 15 12 = 0b0101 → f 5 5 = 0 → decode false w = .ok (.and dr br sr2)) ∧
    (f 15 12 = 0b0101 → f 5 5 = 1 → decode false w = .ok (.andImm dr br imm5)) ∧
    (f 15 12 = 0b1001 → f 5 5 = 0 → decode false w = .ok (.xor dr br sr2)) ∧
    (f 15 12 = 0b1001 → f 5 5 = 1 → f 4 0 ≠ 0b11111 → decode false w = .ok (.xorImm dr br imm5)) ∧
    (f 15 12 = 0b1001 → f 5 5 = 1 → f 4 0 = 0b11111 → decode false w = .ok (.not dr br)) ∧
    (f 15 12 = 0b0000 → decode false w = .ok (.br (f 11 11 == 1) (f 10 10 == 1) (f 9 9 == 1) off9)) ∧
    (f 15 12 = 0b1100 → f 8 6 ≠ 7 → decode false w = .ok (.jmp br)) ∧
    (f 15 12 = 0b1100 → f 8 6 = 7 → decode false w = .ok .ret) ∧
    (f 15 12 = 0b0100 → f 11 11 = 1 → decode false w = .ok (.jsr (BitVec.ofNat 11 (f 10 0)))) ∧
    (f 15 12 = 0b0100 → f 11 11 = 0 → decode false w = .ok (.jsrr br)) ∧
    (f 15 12 = 0b0010 → decode false w = .ok (.ldb dr br off6)) ∧
    (f 15 12 = 0b0110 → decode false w = .ok (.ldr dr br off6)) ∧
    (f 15 12 = 0b1010 → decode false w = .ok (.ldi dr br off6)) ∧
    (f 15 12 = 0b0011 → decode false w = .ok (.stb dr br off6)) ∧
    (f 15 12 = 0b0111 → decode false w = .ok (.str dr br off6)) ∧
    (f 15 12 = 0b1011 → decode false w = .ok (.sti dr br off6)) ∧
    (f 15 12 = 0b1110 → decode false w = .ok (.lea dr off9)) ∧
    (f 15 12 = 0b1101 → f 5 5 = 0 → decode false w = .ok (.lshf dr br amt)) ∧
    (f 15 12 = 0b1101 → f 5 5 = 1 → f 4 4 = 0 → decode false w = .ok (.rshfl dr br amt)) ∧
    (f 15 12 = 0b1101 → f 5 5 = 1 → f 4 4 = 1 → decode false w = .ok (.rshfa dr br amt)) ∧
    (f 15 12 = 0b1000 → decode false w = .ok .rti) ∧
    (f 15 12 = 0b1111 → ∃ i, decode false w = .ok i ∧ i.variant = .trap vec) ∧
    (∀ strict, decode strict w =
      if strict = true ∧ unusedBits w ≠ 0#16 then .error .nonzeroUnusedBits else decode false w)

/-- R96: setting or clearing unused bits of the word's format changes neither the format's unused mask nor, by default,
the decoded instruction; and under the strict setting a word decodes exactly when they are all zero. -/
def Obligations.UnusedBitsAreIgnoredByDefault : Prop :=
  ∀ w u : Word, u &&& ~~~ unusedMask w = 0#16 →
    unusedMask (w ^^^ u) = unusedMask w ∧ decode false (w ^^^ u) = decode false w ∧
    ((∃ i, decode true w = .ok i) ↔ unusedBits w = 0#16)

/-- R95 and R99: the decoder returns one canonical term for each pattern, and only constructible ones; every word decodes
under the default setting (R93). -/
def Obligations.DecoderReturnsCanonicalInstructions : Prop :=
  (∀ w : Word, ∃ i, decode false w = .ok i ∧ i.wellFormed = true ∧ i.construct? = some i) ∧
  (∀ (w : Word) (i : Instr), decode true w = .ok i → i.wellFormed = true ∧ decode false w = .ok i)

/-- spec/30_encoding.md, "How to read a row": for every word exactly one row of the opcode table wins (it matches, and its
mask has more 1 bits than any other matching row's), and it is the row of the decoded instruction. -/
def Obligations.OpcodeTableWinnerIsTheDecodedRow : Prop :=
  ∀ (w : Word) (i : Instr), decode false w = .ok i →
    ∃ row ∈ opcodeTable, row.mnemonic = i.mnemonic ∧ row.matchesWord w = true ∧
      ∀ other ∈ opcodeTable, other.matchesWord w = true → other ≠ row → other.specificity < row.specificity

/-- R99: an operand can be given exactly when it is in the two's-complement range of its field's width, and the field then
reads back as it (imm5, offset6, offset9 and offset11; and the unsigned fields). -/
def Obligations.OperandsAreRangeChecked : Prop :=
  (∀ n : Nat, n = 5 ∨ n = 6 ∨ n = 9 ∨ n = 11 → ∀ k : Int,
    (signedOperand? n k).isSome = decide (-(2 : Int) ^ (n - 1) ≤ k ∧ k < (2 : Int) ^ (n - 1)) ∧
    ∀ f, signedOperand? n k = some f → signedField f = k) ∧
  (∀ n k : Nat, ∀ f, unsignedOperand? n k = some f ↔ (k < 2 ^ n ∧ f.toNat = k))

/-! ### The ALU -/

/-- R120: setcc leaves exactly one flag true, by the signed reading of v, and emits condition_change only if the triple
changes; it changes nothing else. -/
def Obligations.SetccFollowsTheFlagLaw : Prop :=
  ∀ (v : Word) (s : State),
    FlagLaw (setcc v s).cc v ∧ (setcc v s).cc.count = 1 ∧
    (setcc v s).trace = s.trace ++ (if (setcc v s).cc = s.cc then [] else [.conditionChange (setcc v s).cc]) ∧
    SameRegsBut [] s (setcc v s) ∧ (setcc v s).pc = s.pc ∧ SameBytes s (setcc v s) ∧ SamePorts s (setcc v s)

/-- R121: ADD, both forms, completes with the sum modulo 65536 of the operands read before DR is written; imm5 is
signed. -/
def Obligations.AddWritesTheSumModulo65536 : Prop :=
  (∀ (dr sr1 sr2 : RegNum) (s : State), ∃ t r, exec (.add dr sr1 sr2) s = .next t ∧
    IsMod16 r ((s.reg sr1).toNat + (s.reg sr2).toNat) ∧ ResultWritten s t dr r) ∧
  (∀ (dr sr1 : RegNum) (imm5 : BitVec 5) (s : State), ∃ t r, exec (.addImm dr sr1 imm5) s = .next t ∧
    IsMod16 r ((s.reg sr1).toNat + signedField imm5) ∧ ResultWritten s t dr r)

/-- R122: AND, both forms, completes with the bitwise AND; bits 15 to 5 of the immediate operand are copies of
imm5[4]. -/
def Obligations.AndWritesTheBitwiseAnd : Prop :=
  (∀ (dr sr1 sr2 : RegNum) (s : State), ∃ t r, exec (.and dr sr1 sr2) s = .next t ∧
    (∀ k < 16, r.getLsbD k = ((s.reg sr1).getLsbD k && (s.reg sr2).getLsbD k)) ∧ ResultWritten s t dr r) ∧
  (∀ (dr sr1 : RegNum) (imm5 : BitVec 5) (s : State), ∃ t r, exec (.andImm dr sr1 imm5) s = .next t ∧
    (∀ k < 16, r.getLsbD k = ((s.reg sr1).getLsbD k && imm5.getLsbD (min k 4))) ∧ ResultWritten s t dr r)

/-- R123 and R124: XOR, both forms, completes with the bitwise exclusive OR, and NOT with the complement, which is what
XOR with imm5 = 0b11111 gives. -/
def Obligations.XorAndNotWriteTheBitwiseResults : Prop :=
  (∀ (dr sr1 sr2 : RegNum) (s : State), ∃ t r, exec (.xor dr sr1 sr2) s = .next t ∧
    (∀ k < 16, r.getLsbD k = ((s.reg sr1).getLsbD k != (s.reg sr2).getLsbD k)) ∧ ResultWritten s t dr r) ∧
  (∀ (dr sr1 : RegNum) (imm5 : BitVec 5) (s : State), ∃ t r, exec (.xorImm dr sr1 imm5) s = .next t ∧
    (∀ k < 16, r.getLsbD k = ((s.reg sr1).getLsbD k != imm5.getLsbD (min k 4))) ∧ ResultWritten s t dr r) ∧
  (∀ (dr sr : RegNum) (s : State), ∃ t r, exec (.not dr sr) s = .next t ∧
    (∀ k < 16, r.getLsbD k = !(s.reg sr).getLsbD k) ∧ ResultWritten s t dr r ∧
    exec (.xorImm dr sr 0b11111#5) s = .next t)

/-- R125, R126 and R127: the three shifts complete with SR * 2^amount modulo 65536, SR / 2^amount unsigned, and
signed16(SR) / 2^amount rounded down. -/
def Obligations.ShiftsScaleByPowersOfTwo : Prop :=
  ∀ (dr sr : RegNum) (amount4 : BitVec 4) (s : State),
    (∃ t r, exec (.lshf dr sr amount4) s = .next t ∧
      IsMod16 r ((s.reg sr).toNat * 2 ^ amount4.toNat) ∧ ResultWritten s t dr r) ∧
    (∃ t r, exec (.rshfl dr sr amount4) s = .next t ∧
      r.toNat = (s.reg sr).toNat / 2 ^ amount4.toNat ∧ ResultWritten s t dr r) ∧
    (∃ t r, exec (.rshfa dr sr amount4) s = .next t ∧
      signed16 r = Int.fdiv (signed16 (s.reg sr)) (2 ^ amount4.toNat) ∧ ResultWritten s t dr r)

/-! ### Control transfer -/

/-- R152: BR completes; it is taken when some condition bit meets a true flag (an OR of ANDs), and the offset counts words,
not scaled. Nothing but the PC changes. BR is the only instruction that reads the flags: any other one does the same from
other flags, but for the flags themselves (the same ones after a flag-setting instruction) and condition_change. -/
def Obligations.BrIsTakenOnAnyMatchingFlag : Prop :=
  (∀ (n z p : Bool) (offset9 : BitVec 9) (s : State), ∃ t, exec (.br n z p offset9) s = .next t ∧
    OnlyPcChanged s t ∧
    (((n = true ∧ s.cc.n = true) ∨ (z = true ∧ s.cc.z = true) ∨ (p = true ∧ s.cc.p = true)) →
      IsMod16 t.pc (s.pc.toNat + 1 + signedField offset9)) ∧
    (¬ ((n = true ∧ s.cc.n = true) ∨ (z = true ∧ s.cc.z = true) ∨ (p = true ∧ s.cc.p = true)) →
      IsMod16 t.pc (s.pc.toNat + 1))) ∧
  (∀ (i : Instr) (cc : Flags) (s : State), (∀ n z p offset9, i ≠ .br n z p offset9) →
    mapNext withoutFlags (exec i (withFlags cc s)) = mapNext withoutFlags (exec i s) ∧
    (flagSetting i = true → ∀ t u, exec i s = .next t → exec i (withFlags cc s) = .next u → u.cc = t.cc))

/-- R153 and R154: JMP and RET complete with the PC loaded from BaseR and from R7, any 16-bit target; nothing else
changes, and RET is what JMP 7 would do. -/
def Obligations.JmpAndRetLoadThePc : Prop :=
  (∀ (baseR : RegNum) (s : State), ∃ t, exec (.jmp baseR) s = .next t ∧ t.pc = s.reg baseR ∧ OnlyPcChanged s t) ∧
  (∀ s : State, ∃ t, exec .ret s = .next t ∧ t.pc = s.reg 7#3 ∧ OnlyPcChanged s t ∧ exec (.jmp 7#3) s = .next t)

/-- R155 and R156: JSR and JSRR complete with R7 the address after the call and the PC at the target (for JSR the doubled
offset past it; for JSRR the base read before R7 is written, also when it is R7); nothing else changes, and the one event
is R7's (R160). -/
def Obligations.JsrAndJsrrLinkThroughR7 : Prop :=
  (∀ (offset11 : BitVec 11) (s : State), ∃ t, exec (.jsr offset11) s = .next t ∧
    IsMod16 t.pc (s.pc.toNat + 1 + 2 * signedField offset11) ∧
    IsMod16 (t.reg 7#3) (s.pc.toNat + 1) ∧ SameRegsBut [7#3] s t ∧ t.cc = s.cc ∧ SameBytes s t ∧ SamePorts s t ∧
    t.trace = s.trace ++ [.registerWrite 7#3 (s.reg 7#3) (t.reg 7#3)]) ∧
  (∀ (baseR : RegNum) (s : State), ∃ t, exec (.jsrr baseR) s = .next t ∧
    t.pc = s.reg baseR ∧
    IsMod16 (t.reg 7#3) (s.pc.toNat + 1) ∧ SameRegsBut [7#3] s t ∧ t.cc = s.cc ∧ SameBytes s t ∧ SamePorts s t ∧
    t.trace = s.trace ++ [.registerWrite 7#3 (s.reg 7#3) (t.reg 7#3)])

/-! ### Loads, stores, LEA -/

/-- R180 and R59: the byte address is base plus the unscaled signed offset modulo 65536; the word that holds it is its half,
so LDB and STB reach words 0x0000 to 0x7FFF only, and lane 1 is the odd byte. -/
def Obligations.ByteAddressesReachTheLowHalf : Prop :=
  ∀ (base : Word) (offset6 : BitVec 6),
    let b := byteAddress base offset6
    IsMod16 b (base.toNat + signedField offset6) ∧ (wordOfByte b).toNat = b.toNat / 2 ∧
    (wordOfByte b).toNat ≤ 0x7FFF ∧ (laneOfByte b = true ↔ b.toNat % 2 = 1) ∧
    b.toNat = (if laneOfByte b then Memory.highKey (wordOfByte b) else Memory.lowKey (wordOfByte b))

/-- R181: LDB completes with the byte at the byte address (R180; byte key b of the memory, R55) sign-extended. -/
def Obligations.LdbLoadsOneSignExtendedByte : Prop :=
  ∀ (dr baseR : RegNum) (offset6 : BitVec 6) (s : State), ∃ t r, exec (.ldb dr baseR offset6) s = .next t ∧
    signed16 r = signedField (s.mem.readByte (byteAddress (s.reg baseR) offset6).toNat) ∧ ResultWritten s t dr r

/-- R182: STB completes with the byte at the byte address equal to SR[7:0] and EVERY other byte of memory unchanged (the
other half of the word among them); the word write's event is emitted; registers, flags and ports are unchanged. -/
def Obligations.StbStoresOneByte : Prop :=
  ∀ (sr baseR : RegNum) (offset6 : BitVec 6) (s : State), ∃ t, exec (.stb sr baseR offset6) s = .next t ∧
    ∀ b, b = byteAddress (s.reg baseR) offset6 →
      (t.mem.readByte b.toNat).toNat = (s.reg sr).toNat % 256 ∧
      (∀ k, k ≠ b.toNat → t.mem.readByte k = s.mem.readByte k) ∧
      WordStored s t (wordOfByte b) (t.mem.readWord (wordOfByte b))

/-- R183 and R185: LDR and LDI complete with the word at the word address (base plus twice the signed offset), and the word
that word points to. -/
def Obligations.LdrAndLdiLoadWords : Prop :=
  (∀ (dr baseR : RegNum) (offset6 : BitVec 6) (s : State), ∃ t ea, exec (.ldr dr baseR offset6) s = .next t ∧
    IsMod16 ea ((s.reg baseR).toNat + 2 * signedField offset6) ∧ ResultWritten s t dr (s.mem.readWord ea)) ∧
  (∀ (dr baseR : RegNum) (offset6 : BitVec 6) (s : State), ∃ t ea, exec (.ldi dr baseR offset6) s = .next t ∧
    IsMod16 ea ((s.reg baseR).toNat + 2 * signedField offset6) ∧
    ResultWritten s t dr (s.mem.readWord (s.mem.readWord ea)))

/-- R184 and R186: STR and STI complete with SR stored to the word address, and to the word that word points to; every
byte outside the stored word is unchanged. -/
def Obligations.StrAndStiStoreWords : Prop :=
  (∀ (sr baseR : RegNum) (offset6 : BitVec 6) (s : State), ∃ t, exec (.str sr baseR offset6) s = .next t ∧
    ∀ ea, ea = wordAddress (s.reg baseR) offset6 →
      IsMod16 ea ((s.reg baseR).toNat + 2 * signedField offset6) ∧ WordStored s t ea (s.reg sr)) ∧
  (∀ (sr baseR : RegNum) (offset6 : BitVec 6) (s : State), ∃ t, exec (.sti sr baseR offset6) s = .next t ∧
    ∀ ea, ea = wordAddress (s.reg baseR) offset6 →
      IsMod16 ea ((s.reg baseR).toNat + 2 * signedField offset6) ∧ WordStored s t (s.mem.readWord ea) (s.reg sr))

/-- R187: LEA completes with the address npc plus twice the signed offset, sets the flags from it, and reads and writes no
memory. -/
def Obligations.LeaWritesTheAddress : Prop :=
  ∀ (dr : RegNum) (offset9 : BitVec 9) (s : State), ∃ t r, exec (.lea dr offset9) s = .next t ∧
    IsMod16 r (s.pc.toNat + 1 + 2 * signedField offset9) ∧ ResultWritten s t dr r

/-! ### TRAP and RTI -/

/-- R221 and R222: the router sends each mapped vector to its service. -/
def Obligations.TrapRouterDispatchesMappedVectors : Prop :=
  ∀ s : State,
    exec (.trap 0x20#8) s = exec .getc s ∧ exec (.trap 0x21#8) s = exec .out s ∧
    exec (.trap 0x22#8) s = exec .puts s ∧ exec (.trap 0x23#8) s = exec .inn s ∧
    exec (.trap 0x24#8) s = exec .putsp s ∧ exec (.trap 0x25#8) s = exec .halt s

/-- R223 and R228 (with R220, R224): GETC and IN complete, whatever the input stream holds. They take one answer, the next
queued one or else the oracle's, and never wait; a character goes to R0 zero-extended, none leaves R0 as it was. One request
is recorded, the one event is R0's, when a character arrives (R234), and the flags and all else are unchanged. -/
def Obligations.GetcAndInReceiveACharacter : Prop :=
  ∀ s : State, ∃ t u answer, exec .getc s = .next t ∧ exec .inn s = .next u ∧
    ((∃ rest, s.input = answer :: rest ∧ t.input = rest ∧ u.input = rest ∧ t.drawn = s.drawn ∧ u.drawn = s.drawn) ∨
      (s.input = [] ∧ answer = Config.inputOracle s.drawn ∧ t.input = [] ∧ u.input = [] ∧
        t.drawn = s.drawn + 1 ∧ u.drawn = s.drawn + 1)) ∧
    t.ioLog = s.ioLog ++ [.readChar answer] ∧ u.ioLog = s.ioLog ++ [.readCharEcho answer] ∧
    (∀ b, answer = some b → (t.reg 0#3).toNat = b.toNat ∧ (u.reg 0#3).toNat = b.toNat ∧
      t.trace = s.trace ++ [.registerWrite 0#3 (s.reg 0#3) (t.reg 0#3)] ∧ u.trace = t.trace) ∧
    (answer = none → t.reg 0#3 = s.reg 0#3 ∧ u.reg 0#3 = s.reg 0#3 ∧ t.trace = s.trace ∧ u.trace = s.trace) ∧
    ∀ v, v = t ∨ v = u → SameRegsBut [0#3] s v ∧ v.cc = s.cc ∧ IsMod16 v.pc (s.pc.toNat + 1) ∧ SameBytes s v ∧
      v.faultMark = s.faultMark ∧ v.halted = s.halted

/-- R225: OUT completes with one character written, the low byte of R0 (zero included); nothing else changes but the
PC. -/
def Obligations.OutWritesTheLowByteOfR0 : Prop :=
  ∀ s : State, ∃ t b, exec .out s = .next t ∧ b.toNat = (s.reg 0#3).toNat % 256 ∧
    OnlyRequested s t [.writeChar b] ∧ t.halted = s.halted

/-- R226: if some word of memory is zero, PUTS completes, and it has written the low byte of each word from R0 on (addresses
modulo 65536) up to the first zero word, which it has not written. Nothing else changes but the PC. -/
def Obligations.PutsWritesWordsUpToTheZeroWord : Prop :=
  ∀ s : State, (∃ a, s.mem.readWord a = 0#16) →
    ∃ t n, exec .puts s = .next t ∧
      s.mem.readWord (s.reg 0#3 + BitVec.ofNat 16 n) = 0#16 ∧
      (∀ k < n, s.mem.readWord (s.reg 0#3 + BitVec.ofNat 16 k) ≠ 0#16) ∧
      OnlyRequested s t ((List.range n).map fun k =>
        .writeChar (s.mem.readByte (Memory.lowKey (s.reg 0#3 + BitVec.ofNat 16 k)))) ∧
      t.halted = s.halted

/-- R230: if some byte of memory is zero, PUTSP completes, and it has written the bytes from the low byte of word R0 on, in
byte order (low byte then high byte of each word, addresses wrapping), up to the first zero byte. Nothing else changes but
the PC. -/
def Obligations.PutspWritesBytesUpToTheZeroByte : Prop :=
  ∀ s : State, (∃ k < byteKeys, s.mem.readByte k = 0#8) →
    ∃ t n, exec .putsp s = .next t ∧
      s.mem.readByte ((Memory.lowKey (s.reg 0#3) + n) % byteKeys) = 0#8 ∧
      (∀ k < n, s.mem.readByte ((Memory.lowKey (s.reg 0#3) + k) % byteKeys) ≠ 0#8) ∧
      OnlyRequested s t ((List.range n).map fun k =>
        .writeChar (s.mem.readByte ((Memory.lowKey (s.reg 0#3) + k) % byteKeys))) ∧
      t.halted = s.halted

/-- R227: PUTS ends if and only if some word of memory is zero, PUTSP if and only if some byte is; otherwise the step has no
successor (the stuck state, a fault of that name). -/
def Obligations.ScansAreStuckExactlyWithoutATerminator : Prop :=
  ∀ s : State,
    ((∃ t, exec .puts s = .next t) ↔ ∃ a, s.mem.readWord a = 0#16) ∧
    (exec .puts s = .fault .scanNeverStops ↔ ∀ a, s.mem.readWord a ≠ 0#16) ∧
    ((∃ t, exec .putsp s = .next t) ↔ ∃ k < byteKeys, s.mem.readByte k = 0#8) ∧
    (exec .putsp s = .fault .scanNeverStops ↔ ∀ k < byteKeys, s.mem.readByte k ≠ 0#8)

/-- R231: HALT completes: the latch is set by one request and the PC advances; nothing else changes. -/
def Obligations.HaltSetsTheLatchAndCompletes : Prop :=
  ∀ s : State, ∃ t, exec .halt s = .next t ∧ t.halted = true ∧ OnlyRequested s t [.halt]

/-- R232: a TRAP with an unmapped vector completes and changes nothing but the PC, with no IO request. -/
def Obligations.UnmappedTrapIsANoOp : Prop :=
  ∀ (vector8 : BitVec 8) (s : State), vector8.toNat < 0x20 ∨ 0x25 < vector8.toNat →
    ∃ t, exec (.trap vector8) s = .next t ∧ IsMod16 t.pc (s.pc.toNat + 1) ∧ OnlyPcChanged s t

/-- R235 (and R264): RTI raises UnimplementedInstruction with the PC and the word fetched there: the fault mark is set, and
PC, registers, flags, memory, console and trace are unchanged. The next state is the one with the mark set (the model's
choice of outcome, notes/assumptions/5.md). -/
def Obligations.RtiRaisesUnimplementedInstruction : Prop :=
  ∀ s : State, ∃ t, exec .rti s = .next t ∧
    t.faultMark = some (.unimplementedInstruction s.pc (s.mem.readWord s.pc)) ∧
    t.pc = s.pc ∧ SameRegsBut [] s t ∧ t.cc = s.cc ∧ SameBytes s t ∧ t.halted = s.halted ∧ t.input = s.input ∧
    t.drawn = s.drawn ∧ t.ioLog = s.ioLog ∧ t.trace = s.trace

/-- R229 (the spec's default IO), whatever the input stream holds: IN's console output is the prompt, then the character if
the next answer (the queued one, else the oracle's) is one; GETC outputs nothing. -/
def Obligations.InPromptsAndEchoes : Prop :=
  ∀ s : State,
    (∃ t, exec .inn s = .next t ∧ t.console = s.console ++ Config.inPrompt ++ (nextAnswer s).toList) ∧
    (∃ t, exec .getc s = .next t ∧ t.console = s.console)

/-! ### Rules about every instruction -/

/-- R26 and R27: an instruction that is not flag-setting leaves the flags alone, and after a flag-setting one exactly one
flag is true. -/
def Obligations.OnlyFlagSettersWriteFlags : Prop :=
  ∀ (i : Instr) (s t : State), i.wellFormed = true → exec i s = .next t →
    (flagSetting i = false → t.cc = s.cc) ∧ (flagSetting i = true → t.cc.count = 1)

/-- R22: no instruction writes a register outside the table's "register written" column (so no TRAP writes R7), and GETC
and IN leave R0 alone when no character arrives (queued or from the oracle). -/
def Obligations.RegisterWritesFollowTheTable : Prop :=
  ∀ (i : Instr) (s t : State), i.wellFormed = true → exec i s = .next t →
    SameRegsBut (writtenRegs i) s t ∧
    ((i = .getc ∨ i = .inn) → nextAnswer s = none → SameRegsBut [] s t)

/-- R22, the column "registers read": a register that an instruction neither reads nor writes has no influence on it; the
outcome is the same with that register changed, in it alone. -/
def Obligations.RegistersReadFollowTheTable : Prop :=
  ∀ (i : Instr) (r : RegNum) (v : Word) (s : State), i.wellFormed = true → r ∉ readRegs i → r ∉ writtenRegs i →
    exec i (withReg r v s) = mapNext (withReg r v) (exec i s)

/-- R54 and R26: an instruction that is no store leaves memory as it is (equal as data); and no store writes a register or
the flags. -/
def Obligations.OnlyStoresWriteMemory : Prop :=
  ∀ (i : Instr) (s t : State), exec i s = .next t →
    (storing i = false → t.mem = s.mem) ∧ (storing i = true → t.regs = s.regs ∧ t.cc = s.cc)

/-- R222 and R28: outside the TRAP services no instruction touches the console; only HALT changes the latch; only GETC and
IN take an answer from the input stream. -/
def Obligations.OnlyTrapServicesTouchTheConsole : Prop :=
  ∀ (i : Instr) (s t : State), i.wellFormed = true → exec i s = .next t →
    (usesConsole i = false → t.halted = s.halted ∧ t.input = s.input ∧ t.drawn = s.drawn ∧ t.ioLog = s.ioLog) ∧
    (i ≠ .halt → t.halted = s.halted) ∧ (i ≠ .getc → i ≠ .inn → t.input = s.input ∧ t.drawn = s.drawn)

/-- R52 and R63: a word read returns the most recent write to the same word; a write changes no byte outside its word; and
it emits its event (R278). -/
def Obligations.MemoryReadsReturnTheLastWrite : Prop :=
  ∀ (a v : Word) (s : State),
    (∀ b, memRead b (memWrite a v s) = if b = a then v else memRead b s) ∧
    SameBytesButWord a s (memWrite a v s) ∧
    (memWrite a v s).trace = s.trace ++ [.memoryWrite a (memRead a s) v] ∧
    (memRead a s).toNat = 256 * (s.mem.readByte (2 * a.toNat + 1)).toNat + (s.mem.readByte (2 * a.toNat)).toNat

/-- The canonical form makes equal memories equal data: two memories in it that read alike at every byte are equal (it is
the model's representation, notes/assumptions/4.md). -/
def Obligations.CanonicalMemoriesThatReadAlikeAreEqual : Prop :=
  ∀ m n : Memory, m.wf = true → n.wf = true → (∀ k < byteKeys, m.readByte k = n.readByte k) → m = n

/-- R65: a word stored by STR or STI at the address of the next instruction is what the next fetch reads. -/
def Obligations.NextFetchSeesTheStore : Prop :=
  ∀ (sr baseR : RegNum) (offset6 : BitVec 6) (s t : State),
    (exec (.str sr baseR offset6) s = .next t → wordAddress (s.reg baseR) offset6 = nextPc s.pc →
      fetchWord t = s.reg sr) ∧
    (exec (.sti sr baseR offset6) s = .next t → memRead (wordAddress (s.reg baseR) offset6) s = nextPc s.pc →
      fetchWord t = s.reg sr)

/-! ### The step -/

/-- R306: when no fault is marked, the latch is clear and the word at the PC decodes to i, a step is: emit
instruction_start, execute i, then, unless it raised a fatal error, emit pc_change if the PC differs and
instruction_end. -/
def Obligations.StepRunsTheDecodedInstruction : Prop :=
  ∀ (strict : Bool) (s : State) (i : Instr), Running s → decode strict (s.mem.readWord s.pc) = .ok i →
    (∀ t, exec i (emit (.instructionStart s.pc i.variant) s) = .next t → t.faultMark = none →
      nextInstruction strict s = .next (emit (.instructionEnd s.pc i.variant)
        (if t.pc = s.pc then t else emit (.pcChange s.pc t.pc) t)) ∧ stepReturn strict s = .executed) ∧
    (∀ t e, exec i (emit (.instructionStart s.pc i.variant) s) = .next t → t.faultMark = some e →
      nextInstruction strict s = .next t ∧ stepReturn strict s = .err e) ∧
    (∀ r, exec i (emit (.instructionStart s.pc i.variant) s) = .fault r → nextInstruction strict s = .fault r) ∧
    step s = nextInstruction Config.strictUnusedBits s

/-- The host's entry: with an instruction's word placed where step fetches, step runs exactly the decoded instruction. -/
def Obligations.StepRunsThePlacedWord : Prop :=
  ∀ (s : State) (w : Nat) (i : Instr), w < 65536 → decodeTableWord 16 w = some i →
    Running (s.withFetchWord 16 w) ∧ fetchWord (s.withFetchWord 16 w) = BitVec.ofNat 16 w ∧
    step (s.withFetchWord 16 w) = runInstruction i (s.withFetchWord 16 w)

/-- R266: once the fault mark is set, next_instruction and run give the same error again, with no change. -/
def Obligations.FaultsAreSticky : Prop :=
  ∀ (strict : Bool) (s : State) (e : FatalError), s.faultMark = some e →
    nextInstruction strict s = .fault (.fatal e) ∧ stepReturn strict s = .err e ∧
    (Inv s → ∀ max, run strict (max + 1) s = .err e s)

/-- R284 and R306: while the latch is set (and no fault is marked) every step succeeds, executes nothing and changes
nothing, and run executes 0 instructions. -/
def Obligations.HaltedStepsAreNoOps : Prop :=
  ∀ (strict : Bool) (s : State), s.halted = true → s.faultMark = none →
    nextInstruction strict s = .next s ∧ stepReturn strict s = .notExecuted ∧ ∀ max, run strict max s = .ok 0 s

/-- R267: the checks come in this order: a set fault mark, the halted latch, DecodeError, UnimplementedInstruction from
RTI. -/
def Obligations.ChecksComeInPriorityOrder : Prop :=
  ∀ (strict : Bool) (s : State),
    (∀ e, s.faultMark = some e → stepReturn strict s = .err e) ∧
    (s.faultMark = none → s.halted = true → stepReturn strict s = .notExecuted) ∧
    (Running s → ∀ reason, decode strict (fetchWord s) = .error reason →
      stepReturn strict s = .err (.decodeError s.pc (fetchWord s) reason)) ∧
    (Running s → decode strict (fetchWord s) = .ok .rti →
      stepReturn strict s = .err (.unimplementedInstruction s.pc (fetchWord s)))

/-- R264 and R282: a step that marks a fatal error changes no register, flag, memory word or console state, leaves the PC at
its pre-fault value and records it; the error is a DecodeError of the strict setting, with no event, or RTI's
UnimplementedInstruction, with instruction_start as its only event; InvalidMemoryAccess is never raised (R263). -/
def Obligations.FatalStepsArePrecise : Prop :=
  ∀ (strict : Bool) (s t : State) (e : FatalError), nextInstruction strict s = .next t → t.faultMark = some e →
    t.pc = s.pc ∧ t.regs = s.regs ∧ t.cc = s.cc ∧ t.mem = s.mem ∧ t.halted = s.halted ∧ t.input = s.input ∧
    t.drawn = s.drawn ∧ t.ioLog = s.ioLog ∧
    ((strict = true ∧ unusedBits (fetchWord s) ≠ 0#16 ∧
        e = .decodeError s.pc (fetchWord s) .nonzeroUnusedBits ∧ t.trace = s.trace) ∨
      (decode strict (fetchWord s) = .ok .rti ∧ e = .unimplementedInstruction s.pc (fetchWord s) ∧
        t.trace = s.trace ++ [.instructionStart s.pc .rti]))

/-- R308 and R53: a step of a machine with no fault marked always has a successor, but for a PUTS or PUTSP with no
terminator in memory; no step is refused, and no memory access faults. -/
def Obligations.OnlyAnEndlessScanHasNoSuccessor : Prop :=
  ∀ (strict : Bool) (s : State), s.faultMark = none →
    (∃ t, nextInstruction strict s = .next t) ∨
    (nextInstruction strict s = .fault .scanNeverStops ∧ s.halted = false ∧ stepReturn strict s = .hang ∧
      ((decode strict (fetchWord s) = .ok .puts ∧ ∀ a, s.mem.readWord a ≠ 0#16) ∨
       (decode strict (fetchWord s) = .ok .putsp ∧ ∀ k < byteKeys, s.mem.readByte k ≠ 0#8)))

/-- R28 and R284: a step never clears the halted latch, and sets it only by executing HALT. -/
def Obligations.LatchIsSetOnlyByHaltAndNeverCleared : Prop :=
  ∀ (strict : Bool) (s t : State), nextInstruction strict s = .next t →
    (s.halted = true → t.halted = true) ∧
    (s.halted = false → t.halted = true → decode strict (fetchWord s) = .ok .halt)

/-- R282 (with R276, R280, R281): the events of a step that executes an instruction are instruction_start, then register,
memory and flag events only, then pc_change exactly when the PC differs, then instruction_end, with the instruction's own
address and variant. -/
def Obligations.StepsAreBracketedOnTheTrace : Prop :=
  ∀ (strict : Bool) (s t : State), nextInstruction strict s = .next t → stepReturn strict s = .executed →
    ∃ i middle, decode strict (fetchWord s) = .ok i ∧
      t.trace = s.trace ++ [.instructionStart s.pc i.variant] ++ middle ++
        (if t.pc = s.pc then [] else [.pcChange s.pc t.pc]) ++ [.instructionEnd s.pc i.variant] ∧
      ∀ ev ∈ middle, (∃ r old new, ev = .registerWrite r old new) ∨ (∃ a old new, ev = .memoryWrite a old new) ∨
        (∃ cc, ev = .conditionChange cc)

/-- R275: the trace is pure instrumentation: what was emitted earlier changes no outcome and no later event. -/
def Obligations.TraceDoesNotInfluenceTheCore : Prop :=
  ∀ (strict : Bool) (tr : List TraceEvent) (s : State),
    nextInstruction strict (withEarlierTrace tr s) = mapNext (withEarlierTrace tr) (nextInstruction strict s) ∧
    stepReturn strict (withEarlierTrace tr s) = stepReturn strict s

/-- D2 (R96): on a word whose unused bits are zero, such as every word the encoder makes, the two settings of
STRICT_UNUSED_BITS step alike. -/
def Obligations.StrictSettingOnlyMattersForUnusedBits : Prop :=
  (∀ s : State, unusedBits (fetchWord s) = 0#16 → nextInstruction true s = nextInstruction false s) ∧
  (∀ i : Instr, unusedBits (encode i) = 0#16)

/-! ### Invariants, reset and the host port -/

/-- Every step keeps the invariant: canonical memory, mutually exclusive flags (R25), never both ends at once; for `step`,
and for both settings of STRICT_UNUSED_BITS. -/
def Obligations.StepKeepsInv : Prop :=
  (∀ s t : State, Inv s → step s = .next t → Inv t) ∧
  (∀ (strict : Bool) (s t : State), Inv s → nextInstruction strict s = .next t → Inv t)

/-- R33, R51 and R301: construction, for all parameters: registers, flags and PC are the parameters' (NONE is all false),
every memory word is 0x0000, the latch is clear, no fault is marked; and the invariant holds. `State.reset` is the
construction at the parameters the model names (notes/assumptions/1.md). -/
def Obligations.ResetHoldsTheSpecValues : Prop :=
  (∀ (p : ResetParams) (s : State), s = State.new p →
    s.regs = p.regs ∧ s.pc = p.pc ∧ (∀ a, s.mem.readWord a = 0x0000#16) ∧ s.halted = false ∧ s.faultMark = none ∧
    (p.cc = .n → s.cc = ⟨true, false, false⟩) ∧ (p.cc = .z → s.cc = ⟨false, true, false⟩) ∧
    (p.cc = .p → s.cc = ⟨false, false, true⟩) ∧ (p.cc = .none → s.cc = ⟨false, false, false⟩) ∧ Inv s) ∧
  State.reset = State.new Config.resetParams

/-- The invariant holds in every state a machine can reach, from any construction, by steps and host operations (R34). -/
def Obligations.ReachableStatesMeetInv : Prop :=
  ∀ (strict : Bool) (s : State), Reachable strict s → Inv s

/-- R302: load_program writes word i to (origin + i) mod 65536 in order, so the last write to an address wins; other words
keep their values, the PC is the origin, and nothing else changes. -/
def Obligations.LoadProgramWritesInOrder : Prop :=
  ∀ (words : List Word) (origin : Word) (s : State),
    (∀ i, (h : i < words.length) →
      (∀ j, i < j → j < words.length → origin + BitVec.ofNat 16 j ≠ origin + BitVec.ofNat 16 i) →
      (loadProgram words origin s).mem.readWord (origin + BitVec.ofNat 16 i) = words[i]) ∧
    (∀ a, (∀ i < words.length, origin + BitVec.ofNat 16 i ≠ a) →
      (loadProgram words origin s).mem.readWord a = s.mem.readWord a) ∧
    (loadProgram words origin s).pc = origin ∧
    (loadProgram words origin s) = { s with mem := (loadProgram words origin s).mem, pc := origin }

/-- R60: debug_write sets one word, makes no event and changes no other state. -/
def Obligations.DebugWriteSetsOneWord : Prop :=
  ∀ (a v : Word) (s : State),
    (∀ b, readMemory b (debugWrite a v s) = if b = a then v else readMemory b s) ∧
    SameBytesButWord a s (debugWrite a v s) ∧ debugWrite a v s = { s with mem := (debugWrite a v s).mem }

/-- R307: run executes nothing without a budget or while the latch is set; otherwise it takes one step and counts it, or ends
with the step's error and no count, or hangs with an endless scan (R308). So it returns at most max, and less than max only if
the latch is set; the state it returns carries no fault if the first did not; and a budget-limited run can be continued:
running m + n is running m and then n, with the counts added. The latch clause has no premise on the fault mark: with both set
and a budget, that run returns 0 and not the error is the model's reading of R307's pseudocode (DEDUCED,
notes/assumptions/13.md), not a rule of the spec. -/
def Obligations.RunCountsExecutedInstructions : Prop :=
  (∀ (strict : Bool) (max : Nat) (s : State),
    run strict 0 s = .ok 0 s ∧
    (s.halted = true → run strict max s = .ok 0 s) ∧
    (s.halted = false →
      (∀ t, nextInstruction strict s = .next t → t.faultMark = none →
        run strict (max + 1) s =
          match run strict max t with
          | .ok count u => .ok (count + 1) u
          | .err e u => .err e u
          | .hang => .hang) ∧
      (∀ t e, nextInstruction strict s = .next t → t.faultMark = some e → run strict (max + 1) s = .err e t) ∧
      (∀ e, s.faultMark = some e → run strict (max + 1) s = .err e s) ∧
      (nextInstruction strict s = .fault .scanNeverStops → run strict (max + 1) s = .hang))) ∧
  (∀ (strict : Bool) (m n : Nat) (s : State),
    (∀ c t, run strict m s = .ok c t → c ≤ m ∧ (c < m → t.halted = true) ∧ (s.faultMark = none → t.faultMark = none)) ∧
    (∀ t, run strict m s = .ok m t → run strict (m + n) s =
      match run strict n t with
      | .ok c u => .ok (m + c) u
      | .err e u => .err e u
      | .hang => .hang) ∧
    (∀ c t, run strict m s = .ok c t → c < m → run strict (m + n) s = .ok c t))
end

