-- ==== Sys2Proof/Laws/Encode.lean ====
section
/-! SUPPORT. The fields of each format's word, one lemma per format and field (R81, R82), so that a proof about
`decode (encode i)` rewrites with them and never takes an encoding apart again. -/

namespace Sys2Proof

@[simp] theorem bit_getElem_zero (b : Bool) : (bit b)[0] = b := by cases b <;> rfl

/-! ### wordOpr -/

@[simp] theorem opField_wordOpr (op : BitVec 4) (dr sr1 sr2 : RegNum) : opField (wordOpr op dr sr1 sr2) = op := by
  apply BitVec.eq_of_getLsbD_eq
  intro k hk
  unfold opField wordOpr
  rw [BitVec.getLsbD_extractLsb']
  repeat rw [BitVec.getLsbD_append]
  interval_cases k <;> simp

@[simp] theorem drField_wordOpr (op : BitVec 4) (dr sr1 sr2 : RegNum) : drField (wordOpr op dr sr1 sr2) = dr := by
  apply BitVec.eq_of_getLsbD_eq
  intro k hk
  unfold drField wordOpr
  rw [BitVec.getLsbD_extractLsb']
  repeat rw [BitVec.getLsbD_append]
  interval_cases k <;> simp

@[simp] theorem baseField_wordOpr (op : BitVec 4) (dr sr1 sr2 : RegNum) : baseField (wordOpr op dr sr1 sr2) = sr1 := by
  apply BitVec.eq_of_getLsbD_eq
  intro k hk
  unfold baseField wordOpr
  rw [BitVec.getLsbD_extractLsb']
  repeat rw [BitVec.getLsbD_append]
  interval_cases k <;> simp

@[simp] theorem sr2Field_wordOpr (op : BitVec 4) (dr sr1 sr2 : RegNum) : sr2Field (wordOpr op dr sr1 sr2) = sr2 := by
  apply BitVec.eq_of_getLsbD_eq
  intro k hk
  unfold sr2Field wordOpr
  rw [BitVec.getLsbD_extractLsb']
  repeat rw [BitVec.getLsbD_append]
  interval_cases k <;> simp

@[simp] theorem modeBit_wordOpr (op : BitVec 4) (dr sr1 sr2 : RegNum) : modeBit (wordOpr op dr sr1 sr2) = false := by
  unfold modeBit wordOpr
  repeat rw [BitVec.getLsbD_append]
  simp

/-! ### wordOpi -/

@[simp] theorem opField_wordOpi (op : BitVec 4) (dr sr1 : RegNum) (imm5 : BitVec 5) : opField (wordOpi op dr sr1 imm5) = op := by
  apply BitVec.eq_of_getLsbD_eq
  intro k hk
  unfold opField wordOpi
  rw [BitVec.getLsbD_extractLsb']
  repeat rw [BitVec.getLsbD_append]
  interval_cases k <;> simp

@[simp] theorem drField_wordOpi (op : BitVec 4) (dr sr1 : RegNum) (imm5 : BitVec 5) : drField (wordOpi op dr sr1 imm5) = dr := by
  apply BitVec.eq_of_getLsbD_eq
  intro k hk
  unfold drField wordOpi
  rw [BitVec.getLsbD_extractLsb']
  repeat rw [BitVec.getLsbD_append]
  interval_cases k <;> simp

@[simp] theorem baseField_wordOpi (op : BitVec 4) (dr sr1 : RegNum) (imm5 : BitVec 5) : baseField (wordOpi op dr sr1 imm5) = sr1 := by
  apply BitVec.eq_of_getLsbD_eq
  intro k hk
  unfold baseField wordOpi
  rw [BitVec.getLsbD_extractLsb']
  repeat rw [BitVec.getLsbD_append]
  interval_cases k <;> simp

@[simp] theorem imm5Field_wordOpi (op : BitVec 4) (dr sr1 : RegNum) (imm5 : BitVec 5) : imm5Field (wordOpi op dr sr1 imm5) = imm5 := by
  apply BitVec.eq_of_getLsbD_eq
  intro k hk
  unfold imm5Field wordOpi
  rw [BitVec.getLsbD_extractLsb']
  repeat rw [BitVec.getLsbD_append]
  interval_cases k <;> simp

@[simp] theorem modeBit_wordOpi (op : BitVec 4) (dr sr1 : RegNum) (imm5 : BitVec 5) : modeBit (wordOpi op dr sr1 imm5) = true := by
  unfold modeBit wordOpi
  repeat rw [BitVec.getLsbD_append]
  simp

/-! ### wordBr -/

@[simp] theorem opField_wordBr (n z p : Bool) (offset9 : BitVec 9) : opField (wordBr n z p offset9) = 0b0000#4 := by
  apply BitVec.eq_of_getLsbD_eq
  intro k hk
  unfold opField wordBr
  rw [BitVec.getLsbD_extractLsb']
  repeat rw [BitVec.getLsbD_append]
  interval_cases k <;> simp

@[simp] theorem flagBit_wordBr (n z p : Bool) (offset9 : BitVec 9) : flagBit (wordBr n z p offset9) = n := by
  unfold flagBit wordBr
  repeat rw [BitVec.getLsbD_append]
  simp

@[simp] theorem bit10_wordBr (n z p : Bool) (offset9 : BitVec 9) : (wordBr n z p offset9)[10] = z := by
  rw [← BitVec.getLsbD_eq_getElem]
  unfold wordBr
  repeat rw [BitVec.getLsbD_append]
  simp

@[simp] theorem bit9_wordBr (n z p : Bool) (offset9 : BitVec 9) : (wordBr n z p offset9)[9] = p := by
  rw [← BitVec.getLsbD_eq_getElem]
  unfold wordBr
  repeat rw [BitVec.getLsbD_append]
  simp

@[simp] theorem offset9Field_wordBr (n z p : Bool) (offset9 : BitVec 9) : offset9Field (wordBr n z p offset9) = offset9 := by
  apply BitVec.eq_of_getLsbD_eq
  intro k hk
  unfold offset9Field wordBr
  rw [BitVec.getLsbD_extractLsb']
  repeat rw [BitVec.getLsbD_append]
  interval_cases k <;> simp

/-! ### wordJmp -/

@[simp] theorem opField_wordJmp (baseR : RegNum) : opField (wordJmp baseR) = 0b1100#4 := by
  apply BitVec.eq_of_getLsbD_eq
  intro k hk
  unfold opField wordJmp
  rw [BitVec.getLsbD_extractLsb']
  repeat rw [BitVec.getLsbD_append]
  interval_cases k <;> simp

@[simp] theorem baseField_wordJmp (baseR : RegNum) : baseField (wordJmp baseR) = baseR := by
  apply BitVec.eq_of_getLsbD_eq
  intro k hk
  unfold baseField wordJmp
  rw [BitVec.getLsbD_extractLsb']
  repeat rw [BitVec.getLsbD_append]
  interval_cases k <;> simp

/-! ### wordJsr -/

@[simp] theorem opField_wordJsr (offset11 : BitVec 11) : opField (wordJsr offset11) = 0b0100#4 := by
  apply BitVec.eq_of_getLsbD_eq
  intro k hk
  unfold opField wordJsr
  rw [BitVec.getLsbD_extractLsb']
  repeat rw [BitVec.getLsbD_append]
  interval_cases k <;> simp

@[simp] theorem flagBit_wordJsr (offset11 : BitVec 11) : flagBit (wordJsr offset11) = true := by
  unfold flagBit wordJsr
  repeat rw [BitVec.getLsbD_append]
  simp

@[simp] theorem offset11Field_wordJsr (offset11 : BitVec 11) : offset11Field (wordJsr offset11) = offset11 := by
  apply BitVec.eq_of_getLsbD_eq
  intro k hk
  unfold offset11Field wordJsr
  rw [BitVec.getLsbD_extractLsb']
  repeat rw [BitVec.getLsbD_append]
  interval_cases k <;> simp

/-! ### wordJsrr -/

@[simp] theorem opField_wordJsrr (baseR : RegNum) : opField (wordJsrr baseR) = 0b0100#4 := by
  apply BitVec.eq_of_getLsbD_eq
  intro k hk
  unfold opField wordJsrr
  rw [BitVec.getLsbD_extractLsb']
  repeat rw [BitVec.getLsbD_append]
  interval_cases k <;> simp

@[simp] theorem flagBit_wordJsrr (baseR : RegNum) : flagBit (wordJsrr baseR) = false := by
  unfold flagBit wordJsrr
  repeat rw [BitVec.getLsbD_append]
  simp

@[simp] theorem baseField_wordJsrr (baseR : RegNum) : baseField (wordJsrr baseR) = baseR := by
  apply BitVec.eq_of_getLsbD_eq
  intro k hk
  unfold baseField wordJsrr
  rw [BitVec.getLsbD_extractLsb']
  repeat rw [BitVec.getLsbD_append]
  interval_cases k <;> simp

/-! ### wordLdSt -/

@[simp] theorem opField_wordLdSt (op : BitVec 4) (r baseR : RegNum) (offset6 : BitVec 6) : opField (wordLdSt op r baseR offset6) = op := by
  apply BitVec.eq_of_getLsbD_eq
  intro k hk
  unfold opField wordLdSt
  rw [BitVec.getLsbD_extractLsb']
  repeat rw [BitVec.getLsbD_append]
  interval_cases k <;> simp

@[simp] theorem drField_wordLdSt (op : BitVec 4) (r baseR : RegNum) (offset6 : BitVec 6) : drField (wordLdSt op r baseR offset6) = r := by
  apply BitVec.eq_of_getLsbD_eq
  intro k hk
  unfold drField wordLdSt
  rw [BitVec.getLsbD_extractLsb']
  repeat rw [BitVec.getLsbD_append]
  interval_cases k <;> simp

@[simp] theorem baseField_wordLdSt (op : BitVec 4) (r baseR : RegNum) (offset6 : BitVec 6) : baseField (wordLdSt op r baseR offset6) = baseR := by
  apply BitVec.eq_of_getLsbD_eq
  intro k hk
  unfold baseField wordLdSt
  rw [BitVec.getLsbD_extractLsb']
  repeat rw [BitVec.getLsbD_append]
  interval_cases k <;> simp

@[simp] theorem offset6Field_wordLdSt (op : BitVec 4) (r baseR : RegNum) (offset6 : BitVec 6) : offset6Field (wordLdSt op r baseR offset6) = offset6 := by
  apply BitVec.eq_of_getLsbD_eq
  intro k hk
  unfold offset6Field wordLdSt
  rw [BitVec.getLsbD_extractLsb']
  repeat rw [BitVec.getLsbD_append]
  interval_cases k <;> simp

/-! ### wordLea -/

@[simp] theorem opField_wordLea (dr : RegNum) (offset9 : BitVec 9) : opField (wordLea dr offset9) = 0b1110#4 := by
  apply BitVec.eq_of_getLsbD_eq
  intro k hk
  unfold opField wordLea
  rw [BitVec.getLsbD_extractLsb']
  repeat rw [BitVec.getLsbD_append]
  interval_cases k <;> simp

@[simp] theorem drField_wordLea (dr : RegNum) (offset9 : BitVec 9) : drField (wordLea dr offset9) = dr := by
  apply BitVec.eq_of_getLsbD_eq
  intro k hk
  unfold drField wordLea
  rw [BitVec.getLsbD_extractLsb']
  repeat rw [BitVec.getLsbD_append]
  interval_cases k <;> simp

@[simp] theorem offset9Field_wordLea (dr : RegNum) (offset9 : BitVec 9) : offset9Field (wordLea dr offset9) = offset9 := by
  apply BitVec.eq_of_getLsbD_eq
  intro k hk
  unfold offset9Field wordLea
  rw [BitVec.getLsbD_extractLsb']
  repeat rw [BitVec.getLsbD_append]
  interval_cases k <;> simp

/-! ### wordRti -/

@[simp] theorem opField_wordRti : opField wordRti = 0b1000#4 := by
  apply BitVec.eq_of_getLsbD_eq
  intro k hk
  unfold opField wordRti
  rw [BitVec.getLsbD_extractLsb']
  repeat rw [BitVec.getLsbD_append]
  interval_cases k <;> simp

/-! ### wordShf -/

@[simp] theorem opField_wordShf (dr sr : RegNum) (dir arith : Bool) (amount4 : BitVec 4) : opField (wordShf dr sr dir arith amount4) = 0b1101#4 := by
  apply BitVec.eq_of_getLsbD_eq
  intro k hk
  unfold opField wordShf
  rw [BitVec.getLsbD_extractLsb']
  repeat rw [BitVec.getLsbD_append]
  interval_cases k <;> simp

@[simp] theorem drField_wordShf (dr sr : RegNum) (dir arith : Bool) (amount4 : BitVec 4) : drField (wordShf dr sr dir arith amount4) = dr := by
  apply BitVec.eq_of_getLsbD_eq
  intro k hk
  unfold drField wordShf
  rw [BitVec.getLsbD_extractLsb']
  repeat rw [BitVec.getLsbD_append]
  interval_cases k <;> simp

@[simp] theorem baseField_wordShf (dr sr : RegNum) (dir arith : Bool) (amount4 : BitVec 4) : baseField (wordShf dr sr dir arith amount4) = sr := by
  apply BitVec.eq_of_getLsbD_eq
  intro k hk
  unfold baseField wordShf
  rw [BitVec.getLsbD_extractLsb']
  repeat rw [BitVec.getLsbD_append]
  interval_cases k <;> simp

@[simp] theorem modeBit_wordShf (dr sr : RegNum) (dir arith : Bool) (amount4 : BitVec 4) : modeBit (wordShf dr sr dir arith amount4) = dir := by
  unfold modeBit wordShf
  repeat rw [BitVec.getLsbD_append]
  simp

@[simp] theorem arithBit_wordShf (dr sr : RegNum) (dir arith : Bool) (amount4 : BitVec 4) : arithBit (wordShf dr sr dir arith amount4) = arith := by
  unfold arithBit wordShf
  repeat rw [BitVec.getLsbD_append]
  simp

@[simp] theorem amount4Field_wordShf (dr sr : RegNum) (dir arith : Bool) (amount4 : BitVec 4) : amount4Field (wordShf dr sr dir arith amount4) = amount4 := by
  apply BitVec.eq_of_getLsbD_eq
  intro k hk
  unfold amount4Field wordShf
  rw [BitVec.getLsbD_extractLsb']
  repeat rw [BitVec.getLsbD_append]
  interval_cases k <;> simp

/-! ### wordTrap -/

@[simp] theorem opField_wordTrap (vector8 : BitVec 8) : opField (wordTrap vector8) = 0b1111#4 := by
  apply BitVec.eq_of_getLsbD_eq
  intro k hk
  unfold opField wordTrap
  rw [BitVec.getLsbD_extractLsb']
  repeat rw [BitVec.getLsbD_append]
  interval_cases k <;> simp

@[simp] theorem vector8Field_wordTrap (vector8 : BitVec 8) : vector8Field (wordTrap vector8) = vector8 := by
  apply BitVec.eq_of_getLsbD_eq
  intro k hk
  unfold vector8Field wordTrap
  rw [BitVec.getLsbD_extractLsb']
  repeat rw [BitVec.getLsbD_append]
  interval_cases k <;> simp

/-! ### The unused bits are written 0 (R96, R98) -/

@[simp] theorem wordOpr_and_unused (op : BitVec 4) (dr sr1 sr2 : RegNum) : wordOpr op dr sr1 sr2 &&& 0x0018#16 = 0#16 := by
  apply BitVec.eq_of_getLsbD_eq
  intro k hk
  unfold wordOpr
  rw [BitVec.getLsbD_and]
  repeat rw [BitVec.getLsbD_append]
  interval_cases k <;> simp

@[simp] theorem wordJmp_and_unused (baseR : RegNum) : wordJmp baseR &&& 0x0E3F#16 = 0#16 := by
  apply BitVec.eq_of_getLsbD_eq
  intro k hk
  unfold wordJmp
  rw [BitVec.getLsbD_and]
  repeat rw [BitVec.getLsbD_append]
  interval_cases k <;> simp

@[simp] theorem wordJsrr_and_unused (baseR : RegNum) : wordJsrr baseR &&& 0x063F#16 = 0#16 := by
  apply BitVec.eq_of_getLsbD_eq
  intro k hk
  unfold wordJsrr
  rw [BitVec.getLsbD_and]
  repeat rw [BitVec.getLsbD_append]
  interval_cases k <;> simp

@[simp] theorem wordShf_and_unused (dr sr : RegNum) (dir : Bool) (amount4 : BitVec 4) : wordShf dr sr dir false amount4 &&& 0x0010#16 = 0#16 := by
  apply BitVec.eq_of_getLsbD_eq
  intro k hk
  unfold wordShf
  rw [BitVec.getLsbD_and]
  repeat rw [BitVec.getLsbD_append]
  interval_cases k <;> simp

@[simp] theorem wordTrap_and_unused (vector8 : BitVec 8) : wordTrap vector8 &&& 0x0F00#16 = 0#16 := by
  apply BitVec.eq_of_getLsbD_eq
  intro k hk
  unfold wordTrap
  rw [BitVec.getLsbD_and]
  repeat rw [BitVec.getLsbD_append]
  interval_cases k <;> simp

@[simp] theorem wordRti_and_unused : wordRti &&& 0x0FFF#16 = 0#16 := by decide

end Sys2Proof
end

