-- ==== Sys2Proof/Laws/Decode.lean ====
section
/-! SUPPORT. What the decoder answers, said once: when it fails, what it gives otherwise, and that what it gives is
canonical. -/

namespace Sys2Proof

theorem decode_eq_ok_iff {strict : Bool} {w : Word} {i : Instr} :
    decode strict w = .ok i ↔ (strict = true → unusedBits w = 0#16) ∧ i = Instr.ofVariant (decodeVariant w) := by
  unfold decode
  rw [eq_comm (a := i)]
  cases strict <;> by_cases h : unusedBits w = 0#16 <;> simp [h]

theorem decode_eq_error_iff {strict : Bool} {w : Word} {reason : DecodeReason} :
    decode strict w = .error reason ↔ strict = true ∧ unusedBits w ≠ 0#16 := by
  unfold decode
  cases reason
  cases strict <;> by_cases h : unusedBits w = 0#16 <;> simp [h]

theorem ofVector_wellFormed (v : BitVec 8) : (Instr.ofVector v).wellFormed = true := by
  revert v; decide

/-- The ALU families have no non-canonical term but XOR's all-ones immediate. -/
theorem decodeVariant_canonical (w : Word) : (Instr.ofVariant (decodeVariant w)).wellFormed = true := by
  unfold decodeVariant
  split <;> try (first | rfl | (unfold srcField; split <;> rfl))
  · split
    · rfl
    · unfold srcField
      split
      · simp_all [Instr.ofVariant, Instr.wellFormed]
      · rfl
  · split
    · rfl
    · simp_all [Instr.ofVariant, Instr.wellFormed]
  · split <;> rfl
  · unfold Instr.ofVariant
    split <;> first | rfl | simp_all
  · exact ofVector_wellFormed _

/-- Whatever the decoder answers is canonical. -/
theorem wellFormed_of_decode {strict : Bool} {w : Word} {i : Instr} (h : decode strict w = .ok i) :
    i.wellFormed = true := by
  rw [(decode_eq_ok_iff.1 h).2]; exact decodeVariant_canonical w

end Sys2Proof
end

