-- ==== Sys2Proof/Laws/State.lean ====
section
/-! SUPPORT. One lemma per field of `State` and per state update of the operations, so that no later proof unfolds a
record update. -/

namespace Sys2Proof.Machine

/-- The events of setcc(v) from flags `cc`. -/
def ccEvents (cc : Flags) (v : Word) : List TraceEvent := if flagsOf v = cc then [] else [.conditionChange (flagsOf v)]

/-! ### emit -/

@[simp] theorem emit_regs (ev : TraceEvent) (s : State) : (emit ev s).regs = s.regs := rfl
@[simp] theorem emit_pc (ev : TraceEvent) (s : State) : (emit ev s).pc = s.pc := rfl
@[simp] theorem emit_cc (ev : TraceEvent) (s : State) : (emit ev s).cc = s.cc := rfl
@[simp] theorem emit_mem (ev : TraceEvent) (s : State) : (emit ev s).mem = s.mem := rfl
@[simp] theorem emit_faultMark (ev : TraceEvent) (s : State) : (emit ev s).faultMark = s.faultMark := rfl
@[simp] theorem emit_halted (ev : TraceEvent) (s : State) : (emit ev s).halted = s.halted := rfl
@[simp] theorem emit_input (ev : TraceEvent) (s : State) : (emit ev s).input = s.input := rfl
@[simp] theorem emit_drawn (ev : TraceEvent) (s : State) : (emit ev s).drawn = s.drawn := rfl
@[simp] theorem emit_ioLog (ev : TraceEvent) (s : State) : (emit ev s).ioLog = s.ioLog := rfl
@[simp] theorem emit_trace (ev : TraceEvent) (s : State) : (emit ev s).trace = s.trace ++ [ev] := rfl

/-! ### writeReg -/

@[simp] theorem writeReg_regs (i : RegNum) (v : Word) (s : State) : (writeReg i v s).regs = s.regs.set i.toNat v := rfl
@[simp] theorem writeReg_pc (i : RegNum) (v : Word) (s : State) : (writeReg i v s).pc = s.pc := rfl
@[simp] theorem writeReg_cc (i : RegNum) (v : Word) (s : State) : (writeReg i v s).cc = s.cc := rfl
@[simp] theorem writeReg_mem (i : RegNum) (v : Word) (s : State) : (writeReg i v s).mem = s.mem := rfl
@[simp] theorem writeReg_faultMark (i : RegNum) (v : Word) (s : State) : (writeReg i v s).faultMark = s.faultMark := rfl
@[simp] theorem writeReg_halted (i : RegNum) (v : Word) (s : State) : (writeReg i v s).halted = s.halted := rfl
@[simp] theorem writeReg_input (i : RegNum) (v : Word) (s : State) : (writeReg i v s).input = s.input := rfl
@[simp] theorem writeReg_drawn (i : RegNum) (v : Word) (s : State) : (writeReg i v s).drawn = s.drawn := rfl
@[simp] theorem writeReg_ioLog (i : RegNum) (v : Word) (s : State) : (writeReg i v s).ioLog = s.ioLog := rfl
@[simp] theorem writeReg_trace (i : RegNum) (v : Word) (s : State) : (writeReg i v s).trace = s.trace ++ [.registerWrite i (s.reg i) v] := rfl

/-! ### setPc -/

@[simp] theorem setPc_regs (a : Word) (s : State) : (setPc a s).regs = s.regs := rfl
@[simp] theorem setPc_pc (a : Word) (s : State) : (setPc a s).pc = a := rfl
@[simp] theorem setPc_cc (a : Word) (s : State) : (setPc a s).cc = s.cc := rfl
@[simp] theorem setPc_mem (a : Word) (s : State) : (setPc a s).mem = s.mem := rfl
@[simp] theorem setPc_faultMark (a : Word) (s : State) : (setPc a s).faultMark = s.faultMark := rfl
@[simp] theorem setPc_halted (a : Word) (s : State) : (setPc a s).halted = s.halted := rfl
@[simp] theorem setPc_input (a : Word) (s : State) : (setPc a s).input = s.input := rfl
@[simp] theorem setPc_drawn (a : Word) (s : State) : (setPc a s).drawn = s.drawn := rfl
@[simp] theorem setPc_ioLog (a : Word) (s : State) : (setPc a s).ioLog = s.ioLog := rfl
@[simp] theorem setPc_trace (a : Word) (s : State) : (setPc a s).trace = s.trace := rfl

/-! ### advancePc -/

@[simp] theorem advancePc_regs (s : State) : (advancePc s).regs = s.regs := rfl
@[simp] theorem advancePc_pc (s : State) : (advancePc s).pc = nextPc s.pc := rfl
@[simp] theorem advancePc_cc (s : State) : (advancePc s).cc = s.cc := rfl
@[simp] theorem advancePc_mem (s : State) : (advancePc s).mem = s.mem := rfl
@[simp] theorem advancePc_faultMark (s : State) : (advancePc s).faultMark = s.faultMark := rfl
@[simp] theorem advancePc_halted (s : State) : (advancePc s).halted = s.halted := rfl
@[simp] theorem advancePc_input (s : State) : (advancePc s).input = s.input := rfl
@[simp] theorem advancePc_drawn (s : State) : (advancePc s).drawn = s.drawn := rfl
@[simp] theorem advancePc_ioLog (s : State) : (advancePc s).ioLog = s.ioLog := rfl
@[simp] theorem advancePc_trace (s : State) : (advancePc s).trace = s.trace := rfl

/-! ### setcc -/

@[simp] theorem setcc_regs (v : Word) (s : State) : (setcc v s).regs = s.regs := by unfold setcc; split <;> rfl
@[simp] theorem setcc_pc (v : Word) (s : State) : (setcc v s).pc = s.pc := by unfold setcc; split <;> rfl
@[simp] theorem setcc_cc (v : Word) (s : State) : (setcc v s).cc = flagsOf v := by unfold setcc; split <;> rfl
@[simp] theorem setcc_mem (v : Word) (s : State) : (setcc v s).mem = s.mem := by unfold setcc; split <;> rfl
@[simp] theorem setcc_faultMark (v : Word) (s : State) : (setcc v s).faultMark = s.faultMark := by unfold setcc; split <;> rfl
@[simp] theorem setcc_halted (v : Word) (s : State) : (setcc v s).halted = s.halted := by unfold setcc; split <;> rfl
@[simp] theorem setcc_input (v : Word) (s : State) : (setcc v s).input = s.input := by unfold setcc; split <;> rfl
@[simp] theorem setcc_drawn (v : Word) (s : State) : (setcc v s).drawn = s.drawn := by unfold setcc; split <;> rfl
@[simp] theorem setcc_ioLog (v : Word) (s : State) : (setcc v s).ioLog = s.ioLog := by unfold setcc; split <;> rfl
@[simp] theorem setcc_trace (v : Word) (s : State) : (setcc v s).trace = s.trace ++ ccEvents s.cc v := by unfold setcc ccEvents; split <;> simp

/-! ### writeResult -/

@[simp] theorem writeResult_regs (dr : RegNum) (r : Word) (s : State) : (writeResult dr r s).regs = s.regs.set dr.toNat r := by simp [writeResult]
@[simp] theorem writeResult_pc (dr : RegNum) (r : Word) (s : State) : (writeResult dr r s).pc = nextPc s.pc := by simp [writeResult]
@[simp] theorem writeResult_cc (dr : RegNum) (r : Word) (s : State) : (writeResult dr r s).cc = flagsOf r := by simp [writeResult]
@[simp] theorem writeResult_mem (dr : RegNum) (r : Word) (s : State) : (writeResult dr r s).mem = s.mem := by simp [writeResult]
@[simp] theorem writeResult_faultMark (dr : RegNum) (r : Word) (s : State) : (writeResult dr r s).faultMark = s.faultMark := by simp [writeResult]
@[simp] theorem writeResult_halted (dr : RegNum) (r : Word) (s : State) : (writeResult dr r s).halted = s.halted := by simp [writeResult]
@[simp] theorem writeResult_input (dr : RegNum) (r : Word) (s : State) : (writeResult dr r s).input = s.input := by simp [writeResult]
@[simp] theorem writeResult_drawn (dr : RegNum) (r : Word) (s : State) : (writeResult dr r s).drawn = s.drawn := by simp [writeResult]
@[simp] theorem writeResult_ioLog (dr : RegNum) (r : Word) (s : State) : (writeResult dr r s).ioLog = s.ioLog := by simp [writeResult]
@[simp] theorem writeResult_trace (dr : RegNum) (r : Word) (s : State) : (writeResult dr r s).trace = s.trace ++ .registerWrite dr (s.reg dr) r :: ccEvents s.cc r := by simp [writeResult]

/-! ### memWrite -/

@[simp] theorem memWrite_regs (a v : Word) (s : State) : (memWrite a v s).regs = s.regs := rfl
@[simp] theorem memWrite_pc (a v : Word) (s : State) : (memWrite a v s).pc = s.pc := rfl
@[simp] theorem memWrite_cc (a v : Word) (s : State) : (memWrite a v s).cc = s.cc := rfl
@[simp] theorem memWrite_mem (a v : Word) (s : State) : (memWrite a v s).mem = s.mem.writeWord a v := rfl
@[simp] theorem memWrite_faultMark (a v : Word) (s : State) : (memWrite a v s).faultMark = s.faultMark := rfl
@[simp] theorem memWrite_halted (a v : Word) (s : State) : (memWrite a v s).halted = s.halted := rfl
@[simp] theorem memWrite_input (a v : Word) (s : State) : (memWrite a v s).input = s.input := rfl
@[simp] theorem memWrite_drawn (a v : Word) (s : State) : (memWrite a v s).drawn = s.drawn := rfl
@[simp] theorem memWrite_ioLog (a v : Word) (s : State) : (memWrite a v s).ioLog = s.ioLog := rfl
@[simp] theorem memWrite_trace (a v : Word) (s : State) : (memWrite a v s).trace = s.trace ++ [.memoryWrite a (memRead a s) v] := rfl

/-! ### ioWriteChars -/

@[simp] theorem ioWriteChars_regs (bs : List Byte) (s : State) : (ioWriteChars bs s).regs = s.regs := rfl
@[simp] theorem ioWriteChars_pc (bs : List Byte) (s : State) : (ioWriteChars bs s).pc = s.pc := rfl
@[simp] theorem ioWriteChars_cc (bs : List Byte) (s : State) : (ioWriteChars bs s).cc = s.cc := rfl
@[simp] theorem ioWriteChars_mem (bs : List Byte) (s : State) : (ioWriteChars bs s).mem = s.mem := rfl
@[simp] theorem ioWriteChars_faultMark (bs : List Byte) (s : State) : (ioWriteChars bs s).faultMark = s.faultMark := rfl
@[simp] theorem ioWriteChars_halted (bs : List Byte) (s : State) : (ioWriteChars bs s).halted = s.halted := rfl
@[simp] theorem ioWriteChars_input (bs : List Byte) (s : State) : (ioWriteChars bs s).input = s.input := rfl
@[simp] theorem ioWriteChars_drawn (bs : List Byte) (s : State) : (ioWriteChars bs s).drawn = s.drawn := rfl
@[simp] theorem ioWriteChars_ioLog (bs : List Byte) (s : State) : (ioWriteChars bs s).ioLog = s.ioLog ++ bs.map .writeChar := rfl
@[simp] theorem ioWriteChars_trace (bs : List Byte) (s : State) : (ioWriteChars bs s).trace = s.trace := rfl

/-! ### takeAnswer -/

@[simp] theorem takeAnswer_regs (s : State) : (takeAnswer s).regs = s.regs := by unfold takeAnswer; split <;> rfl
@[simp] theorem takeAnswer_pc (s : State) : (takeAnswer s).pc = s.pc := by unfold takeAnswer; split <;> rfl
@[simp] theorem takeAnswer_cc (s : State) : (takeAnswer s).cc = s.cc := by unfold takeAnswer; split <;> rfl
@[simp] theorem takeAnswer_mem (s : State) : (takeAnswer s).mem = s.mem := by unfold takeAnswer; split <;> rfl
@[simp] theorem takeAnswer_faultMark (s : State) : (takeAnswer s).faultMark = s.faultMark := by unfold takeAnswer; split <;> rfl
@[simp] theorem takeAnswer_halted (s : State) : (takeAnswer s).halted = s.halted := by unfold takeAnswer; split <;> rfl
@[simp] theorem takeAnswer_input (s : State) : (takeAnswer s).input = s.input.tail := by unfold takeAnswer; split <;> simp_all
@[simp] theorem takeAnswer_drawn (s : State) : (takeAnswer s).drawn = s.drawn + if s.input.isEmpty then 1 else 0 := by unfold takeAnswer; split <;> simp_all
@[simp] theorem takeAnswer_ioLog (s : State) : (takeAnswer s).ioLog = s.ioLog := by unfold takeAnswer; split <;> rfl
@[simp] theorem takeAnswer_trace (s : State) : (takeAnswer s).trace = s.trace := by unfold takeAnswer; split <;> rfl

/-! ### ioReadChar -/

@[simp] theorem ioReadChar_regs (s : State) : (ioReadChar s).regs = s.regs := by simp [ioReadChar]
@[simp] theorem ioReadChar_pc (s : State) : (ioReadChar s).pc = s.pc := by simp [ioReadChar]
@[simp] theorem ioReadChar_cc (s : State) : (ioReadChar s).cc = s.cc := by simp [ioReadChar]
@[simp] theorem ioReadChar_mem (s : State) : (ioReadChar s).mem = s.mem := by simp [ioReadChar]
@[simp] theorem ioReadChar_faultMark (s : State) : (ioReadChar s).faultMark = s.faultMark := by simp [ioReadChar]
@[simp] theorem ioReadChar_halted (s : State) : (ioReadChar s).halted = s.halted := by simp [ioReadChar]
@[simp] theorem ioReadChar_input (s : State) : (ioReadChar s).input = s.input.tail := by simp [ioReadChar]
@[simp] theorem ioReadChar_drawn (s : State) : (ioReadChar s).drawn = s.drawn + if s.input.isEmpty then 1 else 0 := by simp [ioReadChar]
@[simp] theorem ioReadChar_ioLog (s : State) : (ioReadChar s).ioLog = s.ioLog ++ [.readChar (nextAnswer s)] := by simp [ioReadChar]
@[simp] theorem ioReadChar_trace (s : State) : (ioReadChar s).trace = s.trace := by simp [ioReadChar]

/-! ### ioReadCharEcho -/

@[simp] theorem ioReadCharEcho_regs (s : State) : (ioReadCharEcho s).regs = s.regs := by simp [ioReadCharEcho]
@[simp] theorem ioReadCharEcho_pc (s : State) : (ioReadCharEcho s).pc = s.pc := by simp [ioReadCharEcho]
@[simp] theorem ioReadCharEcho_cc (s : State) : (ioReadCharEcho s).cc = s.cc := by simp [ioReadCharEcho]
@[simp] theorem ioReadCharEcho_mem (s : State) : (ioReadCharEcho s).mem = s.mem := by simp [ioReadCharEcho]
@[simp] theorem ioReadCharEcho_faultMark (s : State) : (ioReadCharEcho s).faultMark = s.faultMark := by simp [ioReadCharEcho]
@[simp] theorem ioReadCharEcho_halted (s : State) : (ioReadCharEcho s).halted = s.halted := by simp [ioReadCharEcho]
@[simp] theorem ioReadCharEcho_input (s : State) : (ioReadCharEcho s).input = s.input.tail := by simp [ioReadCharEcho]
@[simp] theorem ioReadCharEcho_drawn (s : State) : (ioReadCharEcho s).drawn = s.drawn + if s.input.isEmpty then 1 else 0 := by simp [ioReadCharEcho]
@[simp] theorem ioReadCharEcho_ioLog (s : State) : (ioReadCharEcho s).ioLog = s.ioLog ++ [.readCharEcho (nextAnswer s)] := by simp [ioReadCharEcho]
@[simp] theorem ioReadCharEcho_trace (s : State) : (ioReadCharEcho s).trace = s.trace := by simp [ioReadCharEcho]

/-! ### ioHalt -/

@[simp] theorem ioHalt_regs (s : State) : (ioHalt s).regs = s.regs := rfl
@[simp] theorem ioHalt_pc (s : State) : (ioHalt s).pc = s.pc := rfl
@[simp] theorem ioHalt_cc (s : State) : (ioHalt s).cc = s.cc := rfl
@[simp] theorem ioHalt_mem (s : State) : (ioHalt s).mem = s.mem := rfl
@[simp] theorem ioHalt_faultMark (s : State) : (ioHalt s).faultMark = s.faultMark := rfl
@[simp] theorem ioHalt_halted (s : State) : (ioHalt s).halted = true := rfl
@[simp] theorem ioHalt_input (s : State) : (ioHalt s).input = s.input := rfl
@[simp] theorem ioHalt_drawn (s : State) : (ioHalt s).drawn = s.drawn := rfl
@[simp] theorem ioHalt_ioLog (s : State) : (ioHalt s).ioLog = s.ioLog ++ [.halt] := rfl
@[simp] theorem ioHalt_trace (s : State) : (ioHalt s).trace = s.trace := rfl

/-! ### receiveChar -/

@[simp] theorem receiveChar_pc (c : Option Byte) (s : State) : (receiveChar c s).pc = s.pc := by unfold receiveChar; split <;> rfl
@[simp] theorem receiveChar_cc (c : Option Byte) (s : State) : (receiveChar c s).cc = s.cc := by unfold receiveChar; split <;> rfl
@[simp] theorem receiveChar_mem (c : Option Byte) (s : State) : (receiveChar c s).mem = s.mem := by unfold receiveChar; split <;> rfl
@[simp] theorem receiveChar_faultMark (c : Option Byte) (s : State) : (receiveChar c s).faultMark = s.faultMark := by unfold receiveChar; split <;> rfl
@[simp] theorem receiveChar_halted (c : Option Byte) (s : State) : (receiveChar c s).halted = s.halted := by unfold receiveChar; split <;> rfl
@[simp] theorem receiveChar_input (c : Option Byte) (s : State) : (receiveChar c s).input = s.input := by unfold receiveChar; split <;> rfl
@[simp] theorem receiveChar_drawn (c : Option Byte) (s : State) : (receiveChar c s).drawn = s.drawn := by unfold receiveChar; split <;> rfl
@[simp] theorem receiveChar_ioLog (c : Option Byte) (s : State) : (receiveChar c s).ioLog = s.ioLog := by unfold receiveChar; split <;> rfl

/-! ### raiseFatal -/

@[simp] theorem raiseFatal_regs (e : FatalError) (s : State) : (raiseFatal e s).regs = s.regs := rfl
@[simp] theorem raiseFatal_pc (e : FatalError) (s : State) : (raiseFatal e s).pc = s.pc := rfl
@[simp] theorem raiseFatal_cc (e : FatalError) (s : State) : (raiseFatal e s).cc = s.cc := rfl
@[simp] theorem raiseFatal_mem (e : FatalError) (s : State) : (raiseFatal e s).mem = s.mem := rfl
@[simp] theorem raiseFatal_faultMark (e : FatalError) (s : State) : (raiseFatal e s).faultMark = some e := rfl
@[simp] theorem raiseFatal_halted (e : FatalError) (s : State) : (raiseFatal e s).halted = s.halted := rfl
@[simp] theorem raiseFatal_input (e : FatalError) (s : State) : (raiseFatal e s).input = s.input := rfl
@[simp] theorem raiseFatal_drawn (e : FatalError) (s : State) : (raiseFatal e s).drawn = s.drawn := rfl
@[simp] theorem raiseFatal_ioLog (e : FatalError) (s : State) : (raiseFatal e s).ioLog = s.ioLog := rfl
@[simp] theorem raiseFatal_trace (e : FatalError) (s : State) : (raiseFatal e s).trace = s.trace := rfl

/-! ### callTo -/

@[simp] theorem callTo_regs (a : Word) (s : State) : (callTo a s).regs = s.regs.set 7 (nextPc s.pc) := rfl
@[simp] theorem callTo_pc (a : Word) (s : State) : (callTo a s).pc = a := rfl
@[simp] theorem callTo_cc (a : Word) (s : State) : (callTo a s).cc = s.cc := rfl
@[simp] theorem callTo_mem (a : Word) (s : State) : (callTo a s).mem = s.mem := rfl
@[simp] theorem callTo_faultMark (a : Word) (s : State) : (callTo a s).faultMark = s.faultMark := rfl
@[simp] theorem callTo_halted (a : Word) (s : State) : (callTo a s).halted = s.halted := rfl
@[simp] theorem callTo_input (a : Word) (s : State) : (callTo a s).input = s.input := rfl
@[simp] theorem callTo_drawn (a : Word) (s : State) : (callTo a s).drawn = s.drawn := rfl
@[simp] theorem callTo_ioLog (a : Word) (s : State) : (callTo a s).ioLog = s.ioLog := rfl
@[simp] theorem callTo_trace (a : Word) (s : State) : (callTo a s).trace = s.trace ++ [.registerWrite 7#3 (s.reg 7#3) (nextPc s.pc)] := rfl

/-! ### loadProgram -/

@[simp] theorem loadProgram_regs (words : List Word) (a : Word) (s : State) : (loadProgram words a s).regs = s.regs := rfl
@[simp] theorem loadProgram_pc (words : List Word) (a : Word) (s : State) : (loadProgram words a s).pc = a := rfl
@[simp] theorem loadProgram_cc (words : List Word) (a : Word) (s : State) : (loadProgram words a s).cc = s.cc := rfl
@[simp] theorem loadProgram_mem (words : List Word) (a : Word) (s : State) : (loadProgram words a s).mem = loadWords words a s.mem := rfl
@[simp] theorem loadProgram_faultMark (words : List Word) (a : Word) (s : State) : (loadProgram words a s).faultMark = s.faultMark := rfl
@[simp] theorem loadProgram_halted (words : List Word) (a : Word) (s : State) : (loadProgram words a s).halted = s.halted := rfl
@[simp] theorem loadProgram_input (words : List Word) (a : Word) (s : State) : (loadProgram words a s).input = s.input := rfl
@[simp] theorem loadProgram_drawn (words : List Word) (a : Word) (s : State) : (loadProgram words a s).drawn = s.drawn := rfl
@[simp] theorem loadProgram_ioLog (words : List Word) (a : Word) (s : State) : (loadProgram words a s).ioLog = s.ioLog := rfl
@[simp] theorem loadProgram_trace (words : List Word) (a : Word) (s : State) : (loadProgram words a s).trace = s.trace := rfl

/-! ### debugWrite -/

@[simp] theorem debugWrite_regs (a v : Word) (s : State) : (debugWrite a v s).regs = s.regs := rfl
@[simp] theorem debugWrite_pc (a v : Word) (s : State) : (debugWrite a v s).pc = s.pc := rfl
@[simp] theorem debugWrite_cc (a v : Word) (s : State) : (debugWrite a v s).cc = s.cc := rfl
@[simp] theorem debugWrite_mem (a v : Word) (s : State) : (debugWrite a v s).mem = s.mem.writeWord a v := rfl
@[simp] theorem debugWrite_faultMark (a v : Word) (s : State) : (debugWrite a v s).faultMark = s.faultMark := rfl
@[simp] theorem debugWrite_halted (a v : Word) (s : State) : (debugWrite a v s).halted = s.halted := rfl
@[simp] theorem debugWrite_input (a v : Word) (s : State) : (debugWrite a v s).input = s.input := rfl
@[simp] theorem debugWrite_drawn (a v : Word) (s : State) : (debugWrite a v s).drawn = s.drawn := rfl
@[simp] theorem debugWrite_ioLog (a v : Word) (s : State) : (debugWrite a v s).ioLog = s.ioLog := rfl
@[simp] theorem debugWrite_trace (a v : Word) (s : State) : (debugWrite a v s).trace = s.trace := rfl

/-! ### queueInput -/

@[simp] theorem queueInput_regs (c : Option Byte) (s : State) : (queueInput c s).regs = s.regs := rfl
@[simp] theorem queueInput_pc (c : Option Byte) (s : State) : (queueInput c s).pc = s.pc := rfl
@[simp] theorem queueInput_cc (c : Option Byte) (s : State) : (queueInput c s).cc = s.cc := rfl
@[simp] theorem queueInput_mem (c : Option Byte) (s : State) : (queueInput c s).mem = s.mem := rfl
@[simp] theorem queueInput_faultMark (c : Option Byte) (s : State) : (queueInput c s).faultMark = s.faultMark := rfl
@[simp] theorem queueInput_halted (c : Option Byte) (s : State) : (queueInput c s).halted = s.halted := rfl
@[simp] theorem queueInput_input (c : Option Byte) (s : State) : (queueInput c s).input = s.input ++ [c] := rfl
@[simp] theorem queueInput_drawn (c : Option Byte) (s : State) : (queueInput c s).drawn = s.drawn := rfl
@[simp] theorem queueInput_ioLog (c : Option Byte) (s : State) : (queueInput c s).ioLog = s.ioLog := rfl
@[simp] theorem queueInput_trace (c : Option Byte) (s : State) : (queueInput c s).trace = s.trace := rfl

/-! ### placeFetchWord -/

@[simp] theorem placeFetchWord_regs (w : Word) (s : State) : (placeFetchWord w s).regs = s.regs := rfl
@[simp] theorem placeFetchWord_pc (w : Word) (s : State) : (placeFetchWord w s).pc = s.pc := rfl
@[simp] theorem placeFetchWord_cc (w : Word) (s : State) : (placeFetchWord w s).cc = s.cc := rfl
@[simp] theorem placeFetchWord_mem (w : Word) (s : State) : (placeFetchWord w s).mem = s.mem.writeWord s.pc w := rfl
@[simp] theorem placeFetchWord_faultMark (w : Word) (s : State) : (placeFetchWord w s).faultMark = none := rfl
@[simp] theorem placeFetchWord_halted (w : Word) (s : State) : (placeFetchWord w s).halted = false := rfl
@[simp] theorem placeFetchWord_input (w : Word) (s : State) : (placeFetchWord w s).input = s.input := rfl
@[simp] theorem placeFetchWord_drawn (w : Word) (s : State) : (placeFetchWord w s).drawn = s.drawn := rfl
@[simp] theorem placeFetchWord_ioLog (w : Word) (s : State) : (placeFetchWord w s).ioLog = s.ioLog := rfl
@[simp] theorem placeFetchWord_trace (w : Word) (s : State) : (placeFetchWord w s).trace = s.trace := rfl

/-! ### withReg -/

@[simp] theorem withReg_regs (i : RegNum) (v : Word) (s : State) : (withReg i v s).regs = s.regs.set i.toNat v := rfl
@[simp] theorem withReg_pc (i : RegNum) (v : Word) (s : State) : (withReg i v s).pc = s.pc := rfl
@[simp] theorem withReg_cc (i : RegNum) (v : Word) (s : State) : (withReg i v s).cc = s.cc := rfl
@[simp] theorem withReg_mem (i : RegNum) (v : Word) (s : State) : (withReg i v s).mem = s.mem := rfl
@[simp] theorem withReg_faultMark (i : RegNum) (v : Word) (s : State) : (withReg i v s).faultMark = s.faultMark := rfl
@[simp] theorem withReg_halted (i : RegNum) (v : Word) (s : State) : (withReg i v s).halted = s.halted := rfl
@[simp] theorem withReg_input (i : RegNum) (v : Word) (s : State) : (withReg i v s).input = s.input := rfl
@[simp] theorem withReg_drawn (i : RegNum) (v : Word) (s : State) : (withReg i v s).drawn = s.drawn := rfl
@[simp] theorem withReg_ioLog (i : RegNum) (v : Word) (s : State) : (withReg i v s).ioLog = s.ioLog := rfl
@[simp] theorem withReg_trace (i : RegNum) (v : Word) (s : State) : (withReg i v s).trace = s.trace := rfl

/-! ### withEarlierTrace -/

@[simp] theorem withEarlierTrace_regs (tr : List TraceEvent) (s : State) : (withEarlierTrace tr s).regs = s.regs := rfl
@[simp] theorem withEarlierTrace_pc (tr : List TraceEvent) (s : State) : (withEarlierTrace tr s).pc = s.pc := rfl
@[simp] theorem withEarlierTrace_cc (tr : List TraceEvent) (s : State) : (withEarlierTrace tr s).cc = s.cc := rfl
@[simp] theorem withEarlierTrace_mem (tr : List TraceEvent) (s : State) : (withEarlierTrace tr s).mem = s.mem := rfl
@[simp] theorem withEarlierTrace_faultMark (tr : List TraceEvent) (s : State) : (withEarlierTrace tr s).faultMark = s.faultMark := rfl
@[simp] theorem withEarlierTrace_halted (tr : List TraceEvent) (s : State) : (withEarlierTrace tr s).halted = s.halted := rfl
@[simp] theorem withEarlierTrace_input (tr : List TraceEvent) (s : State) : (withEarlierTrace tr s).input = s.input := rfl
@[simp] theorem withEarlierTrace_drawn (tr : List TraceEvent) (s : State) : (withEarlierTrace tr s).drawn = s.drawn := rfl
@[simp] theorem withEarlierTrace_ioLog (tr : List TraceEvent) (s : State) : (withEarlierTrace tr s).ioLog = s.ioLog := rfl
@[simp] theorem withEarlierTrace_trace (tr : List TraceEvent) (s : State) : (withEarlierTrace tr s).trace = tr ++ s.trace := rfl

/-! ### Reading a register -/

theorem reg_eq_of_regs_eq {s t : State} (h : t.regs = s.regs) (i : RegNum) : t.reg i = s.reg i := by
  unfold State.reg; rw [h]

@[simp] theorem writeReg_reg (i j : RegNum) (v : Word) (s : State) :
    (writeReg i v s).reg j = if i = j then v else s.reg j := by
  unfold State.reg
  simp only [writeReg_regs, Vector.getElem_set, BitVec.toNat_inj]

@[simp] theorem withReg_reg (i j : RegNum) (v : Word) (s : State) :
    (withReg i v s).reg j = if i = j then v else s.reg j := writeReg_reg i j v s

@[simp] theorem writeResult_reg (i j : RegNum) (r : Word) (s : State) :
    (writeResult i r s).reg j = if i = j then r else s.reg j := by
  rw [← writeReg_reg]; exact reg_eq_of_regs_eq (by simp) j

@[simp] theorem callTo_reg (a : Word) (j : RegNum) (s : State) :
    (callTo a s).reg j = if 7#3 = j then nextPc s.pc else s.reg j := by
  rw [← writeReg_reg]; exact reg_eq_of_regs_eq (by simp) j

@[simp] theorem receiveChar_some (b : Byte) (s : State) : receiveChar (some b) s = writeReg 0#3 (zext b) s := rfl
@[simp] theorem receiveChar_none (s : State) : receiveChar none s = s := rfl

@[simp] theorem emit_reg (ev : TraceEvent) (s : State) (j : RegNum) : (emit ev s).reg j = s.reg j :=
  reg_eq_of_regs_eq (by simp) j
@[simp] theorem setPc_reg (a : Word) (s : State) (j : RegNum) : (setPc a s).reg j = s.reg j :=
  reg_eq_of_regs_eq (by simp) j
@[simp] theorem advancePc_reg (s : State) (j : RegNum) : (advancePc s).reg j = s.reg j :=
  reg_eq_of_regs_eq (by simp) j
@[simp] theorem setcc_reg (v : Word) (s : State) (j : RegNum) : (setcc v s).reg j = s.reg j :=
  reg_eq_of_regs_eq (by simp) j
@[simp] theorem memWrite_reg (a v : Word) (s : State) (j : RegNum) : (memWrite a v s).reg j = s.reg j :=
  reg_eq_of_regs_eq (by simp) j
@[simp] theorem ioWriteChars_reg (bs : List Byte) (s : State) (j : RegNum) : (ioWriteChars bs s).reg j = s.reg j :=
  reg_eq_of_regs_eq (by simp) j
@[simp] theorem takeAnswer_reg (s : State) (j : RegNum) : (takeAnswer s).reg j = s.reg j :=
  reg_eq_of_regs_eq (by simp) j
@[simp] theorem ioReadChar_reg (s : State) (j : RegNum) : (ioReadChar s).reg j = s.reg j :=
  reg_eq_of_regs_eq (by simp) j
@[simp] theorem ioReadCharEcho_reg (s : State) (j : RegNum) : (ioReadCharEcho s).reg j = s.reg j :=
  reg_eq_of_regs_eq (by simp) j
@[simp] theorem ioHalt_reg (s : State) (j : RegNum) : (ioHalt s).reg j = s.reg j :=
  reg_eq_of_regs_eq (by simp) j
@[simp] theorem raiseFatal_reg (e : FatalError) (s : State) (j : RegNum) : (raiseFatal e s).reg j = s.reg j :=
  reg_eq_of_regs_eq (by simp) j
@[simp] theorem loadProgram_reg (words : List Word) (a : Word) (s : State) (j : RegNum) : (loadProgram words a s).reg j = s.reg j :=
  reg_eq_of_regs_eq (by simp) j
@[simp] theorem debugWrite_reg (a v : Word) (s : State) (j : RegNum) : (debugWrite a v s).reg j = s.reg j :=
  reg_eq_of_regs_eq (by simp) j
@[simp] theorem queueInput_reg (c : Option Byte) (s : State) (j : RegNum) : (queueInput c s).reg j = s.reg j :=
  reg_eq_of_regs_eq (by simp) j
@[simp] theorem placeFetchWord_reg (w : Word) (s : State) (j : RegNum) : (placeFetchWord w s).reg j = s.reg j :=
  reg_eq_of_regs_eq (by simp) j
@[simp] theorem withEarlierTrace_reg (tr : List TraceEvent) (s : State) (j : RegNum) : (withEarlierTrace tr s).reg j = s.reg j :=
  reg_eq_of_regs_eq (by simp) j

/-! ### Memory reads look at memory only -/

theorem memRead_eq_of_mem_eq {s t : State} (h : t.mem = s.mem) (a : Word) : memRead a t = memRead a s := by
  unfold memRead; rw [h]

@[simp] theorem emit_memRead (ev : TraceEvent) (s : State) (m : Word) : memRead m (emit ev s) = memRead m s :=
  memRead_eq_of_mem_eq (by simp) m
@[simp] theorem writeReg_memRead (i : RegNum) (v : Word) (s : State) (m : Word) : memRead m (writeReg i v s) = memRead m s :=
  memRead_eq_of_mem_eq (by simp) m
@[simp] theorem setPc_memRead (a : Word) (s : State) (m : Word) : memRead m (setPc a s) = memRead m s :=
  memRead_eq_of_mem_eq (by simp) m
@[simp] theorem advancePc_memRead (s : State) (m : Word) : memRead m (advancePc s) = memRead m s :=
  memRead_eq_of_mem_eq (by simp) m
@[simp] theorem setcc_memRead (v : Word) (s : State) (m : Word) : memRead m (setcc v s) = memRead m s :=
  memRead_eq_of_mem_eq (by simp) m
@[simp] theorem writeResult_memRead (dr : RegNum) (r : Word) (s : State) (m : Word) : memRead m (writeResult dr r s) = memRead m s :=
  memRead_eq_of_mem_eq (by simp) m
@[simp] theorem ioWriteChars_memRead (bs : List Byte) (s : State) (m : Word) : memRead m (ioWriteChars bs s) = memRead m s :=
  memRead_eq_of_mem_eq (by simp) m
@[simp] theorem takeAnswer_memRead (s : State) (m : Word) : memRead m (takeAnswer s) = memRead m s :=
  memRead_eq_of_mem_eq (by simp) m
@[simp] theorem ioReadChar_memRead (s : State) (m : Word) : memRead m (ioReadChar s) = memRead m s :=
  memRead_eq_of_mem_eq (by simp) m
@[simp] theorem ioReadCharEcho_memRead (s : State) (m : Word) : memRead m (ioReadCharEcho s) = memRead m s :=
  memRead_eq_of_mem_eq (by simp) m
@[simp] theorem ioHalt_memRead (s : State) (m : Word) : memRead m (ioHalt s) = memRead m s :=
  memRead_eq_of_mem_eq (by simp) m
@[simp] theorem receiveChar_memRead (c : Option Byte) (s : State) (m : Word) : memRead m (receiveChar c s) = memRead m s :=
  memRead_eq_of_mem_eq (by simp) m
@[simp] theorem raiseFatal_memRead (e : FatalError) (s : State) (m : Word) : memRead m (raiseFatal e s) = memRead m s :=
  memRead_eq_of_mem_eq (by simp) m
@[simp] theorem callTo_memRead (a : Word) (s : State) (m : Word) : memRead m (callTo a s) = memRead m s :=
  memRead_eq_of_mem_eq (by simp) m
@[simp] theorem queueInput_memRead (c : Option Byte) (s : State) (m : Word) : memRead m (queueInput c s) = memRead m s :=
  memRead_eq_of_mem_eq (by simp) m
@[simp] theorem withReg_memRead (i : RegNum) (v : Word) (s : State) (m : Word) : memRead m (withReg i v s) = memRead m s :=
  memRead_eq_of_mem_eq (by simp) m
@[simp] theorem withEarlierTrace_memRead (tr : List TraceEvent) (s : State) (m : Word) : memRead m (withEarlierTrace tr s) = memRead m s :=
  memRead_eq_of_mem_eq (by simp) m

/-! ### withFlags and withoutFlags -/

@[simp] theorem withFlags_regs (cc : Flags) (s : State) : (withFlags cc s).regs = s.regs := rfl
@[simp] theorem withFlags_pc (cc : Flags) (s : State) : (withFlags cc s).pc = s.pc := rfl
@[simp] theorem withFlags_mem (cc : Flags) (s : State) : (withFlags cc s).mem = s.mem := rfl
@[simp] theorem withFlags_faultMark (cc : Flags) (s : State) : (withFlags cc s).faultMark = s.faultMark := rfl
@[simp] theorem withFlags_halted (cc : Flags) (s : State) : (withFlags cc s).halted = s.halted := rfl
@[simp] theorem withFlags_input (cc : Flags) (s : State) : (withFlags cc s).input = s.input := rfl
@[simp] theorem withFlags_drawn (cc : Flags) (s : State) : (withFlags cc s).drawn = s.drawn := rfl
@[simp] theorem withFlags_ioLog (cc : Flags) (s : State) : (withFlags cc s).ioLog = s.ioLog := rfl
@[simp] theorem withFlags_trace (cc : Flags) (s : State) : (withFlags cc s).trace = s.trace := rfl
@[simp] theorem withFlags_cc (cc : Flags) (s : State) : (withFlags cc s).cc = cc := rfl
@[simp] theorem withFlags_reg (cc : Flags) (s : State) (j : RegNum) : (withFlags cc s).reg j = s.reg j := rfl
@[simp] theorem withFlags_memRead (cc : Flags) (s : State) (m : Word) : memRead m (withFlags cc s) = memRead m s := rfl
@[simp] theorem withoutFlags_withFlags (cc : Flags) (s : State) : withoutFlags (withFlags cc s) = withoutFlags s := rfl

end Sys2Proof.Machine
end

