-- ==== Sys2Proof/Laws/Memory.lean ====
section
/-! SUPPORT. The memory laws: a read after a write, what a write leaves alone, and that every operation keeps the canonical
form. The read laws hold of every cell list, canonical or not. -/

namespace Sys2Proof.Machine

/-! ### Cell lists -/

theorem lookupCell_eraseCell (k j : Nat) (cells : List Host.Cell) :
    lookupCell (eraseCell k cells) j = if j = k then unlistedByte else lookupCell cells j := by
  induction cells with
  | nil => simp [eraseCell, lookupCell]
  | cons c rest ih =>
    unfold eraseCell at ih ⊢
    by_cases hc : c.1 = k
    · rw [List.filter_cons_of_neg (by simpa using hc), ih]
      by_cases hj : j = k <;> simp [lookupCell, hj, hc]
      intro h; exact absurd h.symm hj
    · rw [List.filter_cons_of_pos (by simpa using hc)]
      by_cases hj : c.1 = j
      · have : ¬ j = k := fun h => hc (hj.trans h)
        simp [lookupCell, hj, this]
      · simp [lookupCell, hj, ih]

theorem lookupCell_insertCell {k : Nat} {cells : List Host.Cell} (hk : ∀ c ∈ cells, c.1 ≠ k) (v : Byte) (j : Nat) :
    lookupCell (insertCell k v cells) j = if j = k then v else lookupCell cells j := by
  induction cells with
  | nil => simp [insertCell, lookupCell, eq_comm]
  | cons c rest ih =>
    have hc : c.1 ≠ k := hk c (by simp)
    have hrest := ih fun d hd => hk d (by simp [hd])
    unfold insertCell
    split
    · by_cases hj : j = k
      · simp [lookupCell, hj]
      · have : ¬ k = j := fun h => hj h.symm
        simp [lookupCell, hj, this]
    · by_cases hj : c.1 = j
      · have : ¬ j = k := fun h => hc (hj.trans h)
        simp [lookupCell, hj, this]
      · simp [lookupCell, hj, hrest]

theorem mem_eraseCell {k : Nat} {cells : List Host.Cell} {c : Host.Cell} :
    c ∈ eraseCell k cells ↔ c ∈ cells ∧ c.1 ≠ k := by
  simp [eraseCell]

theorem mem_insertCell {k : Nat} {v : Byte} {cells : List Host.Cell} {c : Host.Cell} :
    c ∈ insertCell k v cells ↔ c = (k, v) ∨ c ∈ cells := by
  induction cells with
  | nil => simp [insertCell]
  | cons d rest ih =>
    unfold insertCell
    split
    · simp
    · simp only [List.mem_cons, ih]; tauto

theorem pairwise_insertCell {k : Nat} {v : Byte} {cells : List Host.Cell} (hk : ∀ c ∈ cells, c.1 ≠ k)
    (h : cells.Pairwise fun a b => a.1 < b.1) : (insertCell k v cells).Pairwise fun a b => a.1 < b.1 := by
  induction cells with
  | nil => simp [insertCell]
  | cons d rest ih =>
    rw [List.pairwise_cons] at h
    have hd : d.1 ≠ k := hk d (by simp)
    unfold insertCell
    split
    · rename_i hlt
      refine List.pairwise_cons.2 ⟨?_, List.pairwise_cons.2 h⟩
      intro c hc
      rcases List.mem_cons.1 hc with rfl | hc
      · exact hlt
      · exact Nat.lt_trans hlt (h.1 c hc)
    · rename_i hlt
      refine List.pairwise_cons.2 ⟨?_, ih (fun c hc => hk c (by simp [hc])) h.2⟩
      intro c hc
      rcases mem_insertCell.1 hc with rfl | hc
      · show d.1 < k; omega
      · exact h.1 c hc

/-! ### Bytes -/

theorem Memory.wf_iff (m : Memory) :
    m.wf = true ↔ (m.cells.Pairwise fun a b => a.1 < b.1) ∧ ∀ c ∈ m.cells, c.1 < byteKeys ∧ c.2 ≠ unlistedByte := by
  simp [Memory.wf]

@[simp] theorem Memory.readByte_writeByte (m : Memory) (k j : Nat) (v : Byte) :
    (m.writeByte k v).readByte j = if j = k then v else m.readByte j := by
  unfold Memory.writeByte Memory.readByte
  dsimp only
  split
  · rename_i hv; rw [lookupCell_eraseCell, hv]
  · rw [lookupCell_insertCell fun c hc => (mem_eraseCell.1 hc).2, lookupCell_eraseCell]
    split <;> rfl

theorem Memory.writeByte_wf {m : Memory} {k : Nat} (hk : k < byteKeys) (v : Byte) (h : m.wf = true) :
    (m.writeByte k v).wf = true := by
  rw [Memory.wf_iff] at h ⊢
  have herase : (eraseCell k m.cells).Pairwise fun a b => a.1 < b.1 := h.1.sublist List.filter_sublist
  unfold Memory.writeByte
  dsimp only
  split
  · exact ⟨herase, fun c hc => h.2 c (mem_eraseCell.1 hc).1⟩
  · rename_i hv
    refine ⟨pairwise_insertCell (fun c hc => (mem_eraseCell.1 hc).2) herase, fun c hc => ?_⟩
    rcases mem_insertCell.1 hc with rfl | hc
    · exact ⟨hk, hv⟩
    · exact h.2 c (mem_eraseCell.1 hc).1

/-! ### Words -/

theorem Memory.lowKey_lt (a : Word) : Memory.lowKey a < byteKeys := by
  have := a.isLt; unfold Memory.lowKey byteKeys; omega

theorem Memory.highKey_lt (a : Word) : Memory.highKey a < byteKeys := by
  have := a.isLt; unfold Memory.highKey byteKeys; omega

theorem Memory.lowKey_ne_highKey (a b : Word) : Memory.lowKey a ≠ Memory.highKey b := by
  unfold Memory.lowKey Memory.highKey; omega

theorem Memory.lowKey_inj {a b : Word} : Memory.lowKey a = Memory.lowKey b ↔ a = b := by
  rw [← BitVec.toNat_inj]; unfold Memory.lowKey; omega

theorem Memory.highKey_inj {a b : Word} : Memory.highKey a = Memory.highKey b ↔ a = b := by
  rw [← BitVec.toNat_inj]; unfold Memory.highKey; omega

/-- A byte after a word write: the two lanes of the word are written, every other byte is as before. -/
theorem Memory.readByte_writeWord (m : Memory) (a v : Word) (k : Nat) :
    (m.writeWord a v).readByte k =
      if k = Memory.highKey a then v.extractLsb' 8 8
      else if k = Memory.lowKey a then v.extractLsb' 0 8 else m.readByte k := by
  simp [Memory.writeWord]

/-- The two lanes of a word, put together, are the word. -/
theorem extractLanes_append (v : Word) : v.extractLsb' 8 8 ++ v.extractLsb' 0 8 = v := by
  apply BitVec.eq_of_getLsbD_eq
  intro k hk
  rw [BitVec.getLsbD_append]
  split <;> simp <;> grind

/-- A word read after a word write. -/
@[simp] theorem Memory.readWord_writeWord (m : Memory) (a b v : Word) :
    (m.writeWord a v).readWord b = if b = a then v else m.readWord b := by
  unfold Memory.readWord
  rw [Memory.readByte_writeWord, Memory.readByte_writeWord]
  simp only [Memory.lowKey_inj, Memory.highKey_inj, Memory.lowKey_ne_highKey, (Memory.lowKey_ne_highKey _ _).symm, if_false]
  split
  · exact extractLanes_append v
  · rfl

theorem Memory.writeWord_wf {m : Memory} (a v : Word) (h : m.wf = true) : (m.writeWord a v).wf = true :=
  Memory.writeByte_wf (Memory.highKey_lt a) _ (Memory.writeByte_wf (Memory.lowKey_lt a) _ h)

/-- R51: fresh memory reads zero everywhere. -/
theorem Memory.readByte_empty (k : Nat) : (Memory.mk []).readByte k = 0#8 := rfl

theorem loadWords_wf (words : List Word) (a : Word) {m : Memory} (h : m.wf = true) : (loadWords words a m).wf = true := by
  induction words generalizing a m with
  | nil => exact h
  | cons w rest ih => exact ih _ (Memory.writeWord_wf a w h)

/-! ### Lanes of a word -/

/-- The bits of a word given by its lanes. -/
theorem getLsbD_lanes (hi lo : Byte) (k : Nat) :
    BitVec.getLsbD (hi ++ lo : Word) k = if k < 8 then lo.getLsbD k else hi.getLsbD (k - 8) := by
  rw [BitVec.getLsbD_append]

theorem lowByte_lanes (hi lo : Byte) : lowByte (hi ++ lo : Word) = lo := by
  apply BitVec.eq_of_getLsbD_eq
  intro k hk
  rw [lowByte, BitVec.getLsbD_extractLsb', getLsbD_lanes]
  simp [hk]

theorem highByte_lanes (hi lo : Byte) : highByte (hi ++ lo : Word) = hi := by
  apply BitVec.eq_of_getLsbD_eq
  intro k hk
  rw [highByte, BitVec.getLsbD_extractLsb', getLsbD_lanes]
  simp [hk]

theorem lowByte_readWord (m : Memory) (a : Word) : lowByte (m.readWord a) = m.readByte (Memory.lowKey a) :=
  lowByte_lanes _ _

theorem highByte_readWord (m : Memory) (a : Word) : highByte (m.readWord a) = m.readByte (Memory.highKey a) :=
  highByte_lanes _ _

/-- A word is zero exactly when both its lanes are. -/
theorem readWord_eq_zero_iff (m : Memory) (a : Word) :
    m.readWord a = 0#16 ↔ m.readByte (Memory.lowKey a) = 0#8 ∧ m.readByte (Memory.highKey a) = 0#8 := by
  constructor
  · intro h
    rw [← lowByte_readWord, ← highByte_readWord, h]
    exact ⟨by decide, by decide⟩
  · rintro ⟨hl, hh⟩
    unfold Memory.readWord
    rw [hl, hh]; decide

end Sys2Proof.Machine
end

