-- ==== Sys2Proof/Laws/Words.lean ====
section
/-! SUPPORT. The operand and flag computations read as numbers: each lemma turns one BitVec expression of Operands.lean or
Flags.lean into the integer the spec's rule writes. -/

namespace Sys2Proof.Machine

theorem signedField_eq_toInt {n : Nat} (f : BitVec n) : signedField f = f.toInt := by
  unfold signedField BitVec.toInt
  split <;> simp_all

theorem signed16_eq_toInt (v : Word) : signed16 v = v.toInt := by
  unfold signed16 BitVec.toInt
  split <;> split <;> omega

/-- A word is its signed reading modulo 65536. -/
theorem isMod16_iff {w : Word} {k : Int} : IsMod16 w k ↔ w = BitVec.ofInt 16 k := by
  unfold IsMod16
  rw [← BitVec.toNat_inj, BitVec.toNat_ofInt]
  have : (0 : Int) ≤ k % 65536 := Int.emod_nonneg _ (by decide)
  norm_num
  omega

theorem isMod16_nextPc (pc : Word) : IsMod16 (nextPc pc) (pc.toNat + 1) := by
  unfold IsMod16 nextPc
  simp [BitVec.toNat_add]

/-- The low 16 bits of a sum of integers that are each known modulo 65536. -/
theorem isMod16_add {a b : Word} {x y : Int} (ha : IsMod16 a x) (hb : IsMod16 b y) : IsMod16 (a + b) (x + y) := by
  unfold IsMod16 at *
  rw [BitVec.toNat_add]
  push_cast
  rw [ha, hb, ← Int.add_emod]

theorem isMod16_toNat (a : Word) : IsMod16 a a.toNat := by
  have := a.isLt
  unfold IsMod16; omega

theorem isMod16_sext {n : Nat} (f : BitVec n) : IsMod16 (sext f) (signedField f) := by
  rw [isMod16_iff, signedField_eq_toInt]
  rfl

theorem isMod16_shiftLeft {a : Word} {x : Int} (k : Nat) (ha : IsMod16 a x) : IsMod16 (a <<< k) (x * 2 ^ k) := by
  unfold IsMod16 at *
  rw [BitVec.toNat_shiftLeft, Nat.shiftLeft_eq]
  push_cast
  rw [ha, Int.mul_emod, Int.emod_emod_of_dvd _ (dvd_refl _), ← Int.mul_emod]

theorem isMod16_sextDoubled {n : Nat} (f : BitVec n) : IsMod16 (sextDoubled f) (2 * signedField f) := by
  have h := isMod16_shiftLeft 1 (isMod16_sext f)
  rw [mul_comm]; simpa [sextDoubled] using h

/-- sext_N copies bit N-1 into the high bits (R11). -/
theorem getLsbD_sext {n : Nat} (f : BitVec (n + 1)) {k : Nat} (hk : k < 16) : (sext f).getLsbD k = f.getLsbD (min k n) := by
  unfold sext
  rw [BitVec.getLsbD_signExtend]
  by_cases h : k < n + 1
  · have : min k n = k := by omega
    simp [hk, h, this]
  · have : min k n = n := by omega
    simp [hk, h, this, BitVec.msb_eq_getLsbD_last]

/-- sext is exact: the signed reading is the field's, when the field fits in a word. -/
theorem signed16_sext {n : Nat} (hn : n ≤ 16) (f : BitVec n) : signed16 (sext f) = signedField f := by
  rw [signed16_eq_toInt, signedField_eq_toInt]
  exact BitVec.toInt_signExtend_of_le hn

/-- flagsOf is the flag law (R120). -/
theorem flagLaw_flagsOf (v : Word) : FlagLaw (flagsOf v) v := by
  have hlt := v.isLt
  have hmsb : v.getLsbD 15 = decide (32768 ≤ v.toNat) := by
    have := BitVec.msb_eq_decide v
    rw [BitVec.msb_eq_getLsbD_last] at this
    simpa using this
  have hzero : (v == 0#16) = decide (v.toNat = 0) := by
    rw [Bool.eq_iff_iff]; simp [← BitVec.toNat_inj]
  unfold FlagLaw flagsOf signed16
  simp only [hmsb, bne, hzero]
  refine ⟨?_, ?_, ?_⟩ <;> simp <;> split <;> omega

/-- Exactly one flag of a result is true (R27). -/
theorem count_flagsOf (v : Word) : (flagsOf v).count = 1 := by
  unfold flagsOf Flags.count
  by_cases h : v = 0#16
  · subst h; decide
  · cases hb : v.getLsbD 15 <;> simp [bne, beq_eq_false_iff_ne.2 h]

theorem branchTaken_iff (n z p : Bool) (cc : Flags) : branchTaken n z p cc = true ↔
    ((n = true ∧ cc.n = true) ∨ (z = true ∧ cc.z = true) ∨ (p = true ∧ cc.p = true)) := by
  simp [branchTaken, or_assoc]

end Sys2Proof.Machine
end

