-- ==== Sys2Proof/Laws/Exec.lean ====
section
/-! SUPPORT. What each shared operation does, said once, and the one inversion lemma of `exec`: whatever the instruction,
its outcome has one of the shapes of `ExecShape`. -/

namespace Sys2Proof.Machine

/-! ### The shared operations against the terms of Safety.lean -/

theorem samePorts_refl (s : State) : SamePorts s s := ⟨rfl, rfl, rfl, rfl, rfl⟩

theorem ccEvents_eq (s : State) (r : Word) :
    ccEvents s.cc r = if flagsOf r = s.cc then [] else [.conditionChange (flagsOf r)] := rfl

/-- The end of every flag-setting instruction. -/
theorem writeResult_spec (dr : RegNum) (r : Word) (s : State) : ResultWritten s (writeResult dr r s) dr r where
  value := by simp
  others := fun i hi => by
    have : ¬ dr = i := fun h => hi (by simp [h])
    simp [this]
  flags := by simpa using flagLaw_flagsOf r
  pc := by simpa using isMod16_nextPc s.pc
  bytes := fun k => by simp
  ports := ⟨by simp, by simp, by simp, by simp, by simp⟩
  trace := by simp [ccEvents]

/-- The end of every store. -/
theorem advancePc_memWrite_spec (a v : Word) (s : State) : WordStored s (advancePc (memWrite a v s)) a v where
  value := by simp
  otherBytes := fun k hl hh => by simp [Memory.readByte_writeWord, hl, hh]
  regs := fun i _ => by simp
  flags := by simp
  pc := by simpa using isMod16_nextPc s.pc
  ports := ⟨by simp, by simp, by simp, by simp, by simp⟩
  trace := by simp [memRead]

/-- A jump. -/
theorem setPc_spec (a : Word) (s : State) : OnlyPcChanged s (setPc a s) where
  regs := fun i _ => by simp
  flags := by simp
  bytes := fun k => by simp
  ports := ⟨by simp, by simp, by simp, by simp, by simp⟩
  trace := by simp

/-- A service that writes characters. -/
theorem advancePc_ioWriteChars_spec (bs : List Byte) (s : State) :
    OnlyRequested s (advancePc (ioWriteChars bs s)) (bs.map .writeChar) where
  ioLog := by simp
  pc := by simpa using isMod16_nextPc s.pc
  regs := fun i _ => by simp
  flags := by simp
  bytes := fun k => by simp
  faultMark := by simp
  input := by simp
  drawn := by simp
  trace := by simp

/-! ### The inversion lemma of exec -/

/-- The shapes an instruction's outcome can have. -/
inductive ExecShape (i : Instr) (s : State) : Host.Outcome State Fault Refusal → Prop
  | result (dr : RegNum) (r : Word) (hf : flagSetting i = true) (hw : writtenRegs i = [dr]) (hs : storing i = false)
      (hc : usesConsole i = false) : ExecShape i s (.next (writeResult dr r s))
  | store (a v : Word) (hf : flagSetting i = false) (hs : storing i = true) (hc : usesConsole i = false) :
      ExecShape i s (.next (advancePc (memWrite a v s)))
  | jump (a : Word) (hf : flagSetting i = false) (hs : storing i = false) (hc : usesConsole i = false) :
      ExecShape i s (.next (setPc a s))
  | call (a : Word) (hf : flagSetting i = false) (hw : writtenRegs i = [7#3]) (hs : storing i = false)
      (hc : usesConsole i = false) : ExecShape i s (.next (callTo a s))
  | getc (hi : i = .getc) : ExecShape i s (.next (advancePc (receiveChar (nextAnswer s) (ioReadChar s))))
  | inn (hi : i = .inn) : ExecShape i s (.next (advancePc (receiveChar (nextAnswer s) (ioReadCharEcho s))))
  | write (bs : List Byte) (hi : i = .out ∨ i = .puts ∨ i = .putsp) :
      ExecShape i s (.next (advancePc (ioWriteChars bs s)))
  | stuckPuts (hi : i = .puts) (h : putsScan s.mem scanBound (s.reg 0#3) = none) : ExecShape i s (.fault .scanNeverStops)
  | stuckPutsp (hi : i = .putsp) (h : putspScan s.mem scanBound (s.reg 0#3) = none) :
      ExecShape i s (.fault .scanNeverStops)
  | halt (hi : i = .halt) : ExecShape i s (.next (advancePc (ioHalt s)))
  | rti (hi : i = .rti) :
      ExecShape i s (.next (raiseFatal (.unimplementedInstruction s.pc (fetchWord s)) s))

/-- The router on an unmapped vector. -/
theorem routeTrap_unmapped {v : BitVec 8} (h : (Instr.trap v).wellFormed = true) (s : State) :
    routeTrap v s = .next (advancePc s) := by
  simp [Instr.wellFormed, mappedVectors] at h
  simp [routeTrap, serviceNone, h]

theorem exec_trap (v : BitVec 8) (s : State) : exec (.trap v) s = routeTrap v s := rfl
theorem exec_puts (s : State) : exec .puts s = finishScan (putsScan s.mem scanBound (s.reg 0#3)) s := rfl
theorem exec_putsp (s : State) : exec .putsp s = finishScan (putspScan s.mem scanBound (s.reg 0#3)) s := rfl

/-- Every outcome of a canonical instruction has one of the shapes. -/
theorem exec_shape {i : Instr} (h : i.wellFormed = true) (s : State) : ExecShape i s (exec i s) := by
  cases i with
  | br n z p offset9 =>
    show ExecShape _ s (.next (if _ then _ else _))
    split
    · exact .jump _ rfl rfl rfl
    · exact .jump _ rfl rfl rfl
  | jmp | ret => exact .jump _ rfl rfl rfl
  | jsr | jsrr => exact .call _ rfl rfl rfl rfl
  | stb | str | sti => exact .store _ _ rfl rfl rfl
  | trap v =>
    rw [exec_trap, routeTrap_unmapped h s]
    exact .jump _ rfl rfl rfl
  | getc => exact .getc rfl
  | inn => exact .inn rfl
  | out => exact .write _ (.inl rfl)
  | puts =>
    rw [exec_puts]
    cases hp : putsScan s.mem scanBound (s.reg 0#3) with
    | some bs => exact .write bs (.inr (.inl rfl))
    | none => exact .stuckPuts rfl hp
  | putsp =>
    rw [exec_putsp]
    cases hp : putspScan s.mem scanBound (s.reg 0#3) with
    | some bs => exact .write bs (.inr (.inr rfl))
    | none => exact .stuckPutsp rfl hp
  | halt => exact .halt rfl
  | rti => exact .rti rfl
  | _ => exact .result _ _ rfl rfl rfl rfl

/-- A term that is not canonical means what its canonical alias means (R95): RET is JMP 7, NOT is XOR with all ones, and a
service row is the TRAP with its vector. -/
theorem exec_canonical (i : Instr) (s : State) : exec (Instr.ofVariant i.variant) s = exec i s := by
  cases i with
  | trap v =>
    show exec (Instr.ofVector v) s = exec (.trap v) s
    rw [exec_trap]
    unfold Instr.ofVector
    split_ifs with h0 h1 h2 h3 h4 h5
    · subst h0; rfl
    · subst h1; rfl
    · subst h2; rfl
    · subst h3; rfl
    · subst h4; rfl
    · subst h5; rfl
    · rfl
  | _ => rfl

theorem exec_xorImm_allOnes (dr sr : RegNum) (s : State) : exec (.xorImm dr sr 0b11111#5) s = exec (.not dr sr) s := rfl

theorem exec_jmp_seven (s : State) : exec (.jmp 7#3) s = exec .ret s := rfl

/-! ### What follows from the shapes -/

/-- RTI alone sets the fault mark. -/
theorem exec_faultMark {i : Instr} (hw : i.wellFormed = true) (hi : i ≠ .rti) {s t : State} (h : exec i s = .next t) :
    t.faultMark = s.faultMark := by
  have hshape := exec_shape hw s
  rw [h] at hshape
  cases hshape <;> first | simp; done | exact absurd ‹_› hi

/-- An instruction's own events are register, memory and flag events (R282). -/
theorem exec_trace {i : Instr} (hw : i.wellFormed = true) {s t : State} (h : exec i s = .next t) :
    ∃ own, t.trace = s.trace ++ own ∧
      ∀ ev ∈ own, (∃ r old new, ev = .registerWrite r old new) ∨ (∃ a old new, ev = .memoryWrite a old new) ∨
        (∃ cc, ev = .conditionChange cc) := by
  have hshape := exec_shape hw s
  rw [h] at hshape
  cases hshape with
  | result => exact ⟨_, by simp; rfl, by unfold ccEvents; split <;> simp⟩
  | store | call => exact ⟨_, by simp; rfl, by simp⟩
  | getc | inn =>
    cases nextAnswer s with
    | none => exact ⟨[], by simp, by simp⟩
    | some b => exact ⟨_, by simp; rfl, by simp⟩
  | _ => exact ⟨[], by simp, by simp⟩

end Sys2Proof.Machine
end

