-- ==== Sys2Proof/Laws/PerInstr.lean ====
section
/-! SUPPORT. Statements made per instruction. RowPattern: the encoder's word for an instruction matches the
opcode-table row that the instruction is (spec/opcode_table.json). The bits of each format under its rows' masks are
found once, and every constructor's lemma cites them. -/

namespace Sys2Proof.Laws.RowPattern

/-- The encoded word matches some row of the table under the instruction's own row name. -/
def Statement (i : Instr) : Prop :=
  ∃ row ∈ opcodeTable, row.mnemonic = i.mnemonic ∧ row.matchesWord (encode i) = true

/-- The row, given its pattern and the encoded word's bits under the mask. -/
theorem of_pattern {i : Instr} (row : OpcodeRow) (hrow : row ∈ opcodeTable) (hname : row.mnemonic = i.mnemonic)
    (hbits : encode i &&& row.mask = row.value) : Statement i :=
  ⟨row, hrow, hname, by simpa [OpcodeRow.matchesWord] using hbits⟩

/-! ### Masked formats -/

theorem append_and {n m : Nat} (a c : BitVec n) (b d : BitVec m) : (a ++ b) &&& (c ++ d) = (a &&& c) ++ (b &&& d) := by
  apply BitVec.eq_of_getLsbD_eq
  intro k hk
  simp only [BitVec.getLsbD_and, BitVec.getLsbD_append]
  split <;> rfl

theorem and_ones4 (a : BitVec 4) : a &&& 0xF#4 = a := by revert a; decide

theorem wordOpr_mask (op : BitVec 4) (dr sr1 sr2 : RegNum) : wordOpr op dr sr1 sr2 &&& 0xF020#16 = op ++ 0#3 ++ 0#3 ++ 0#1 ++ 0#2 ++ 0#3 := by
  show (wordOpr op dr sr1 sr2) &&& (15#4 ++ 0#3 ++ 0#3 ++ 1#1 ++ 0#2 ++ 0#3) = _
  rw [wordOpr]
  repeat rw [append_and]
  simp [and_ones4]

theorem wordOpi_mask (op : BitVec 4) (dr sr1 : RegNum) (imm5 : BitVec 5) : wordOpi op dr sr1 imm5 &&& 0xF020#16 = op ++ 0#3 ++ 0#3 ++ 1#1 ++ 0#5 := by
  show (wordOpi op dr sr1 imm5) &&& (15#4 ++ 0#3 ++ 0#3 ++ 1#1 ++ 0#5) = _
  rw [wordOpi]
  repeat rw [append_and]
  simp [and_ones4]

theorem wordBr_mask (n z p : Bool) (offset9 : BitVec 9) : wordBr n z p offset9 &&& 0xF000#16 = 0#4 ++ 0#1 ++ 0#1 ++ 0#1 ++ 0#9 := by
  show (wordBr n z p offset9) &&& (15#4 ++ 0#1 ++ 0#1 ++ 0#1 ++ 0#9) = _
  rw [wordBr]
  repeat rw [append_and]
  simp

theorem wordJmp_mask (baseR : RegNum) : wordJmp baseR &&& 0xF000#16 = 12#4 ++ 0#3 ++ 0#3 ++ 0#6 := by
  show (wordJmp baseR) &&& (15#4 ++ 0#3 ++ 0#3 ++ 0#6) = _
  rw [wordJmp]
  repeat rw [append_and]
  simp

theorem wordJsr_mask (offset11 : BitVec 11) : wordJsr offset11 &&& 0xF800#16 = 4#4 ++ 1#1 ++ 0#11 := by
  show (wordJsr offset11) &&& (15#4 ++ 1#1 ++ 0#11) = _
  rw [wordJsr]
  repeat rw [append_and]
  simp

theorem wordJsrr_mask (baseR : RegNum) : wordJsrr baseR &&& 0xF800#16 = 4#4 ++ 0#1 ++ 0#2 ++ 0#3 ++ 0#6 := by
  show (wordJsrr baseR) &&& (15#4 ++ 1#1 ++ 0#2 ++ 0#3 ++ 0#6) = _
  rw [wordJsrr]
  repeat rw [append_and]
  simp

theorem wordLdSt_mask (op : BitVec 4) (r baseR : RegNum) (offset6 : BitVec 6) : wordLdSt op r baseR offset6 &&& 0xF000#16 = op ++ 0#3 ++ 0#3 ++ 0#6 := by
  show (wordLdSt op r baseR offset6) &&& (15#4 ++ 0#3 ++ 0#3 ++ 0#6) = _
  rw [wordLdSt]
  repeat rw [append_and]
  simp [and_ones4]

theorem wordLea_mask (dr : RegNum) (offset9 : BitVec 9) : wordLea dr offset9 &&& 0xF000#16 = 14#4 ++ 0#3 ++ 0#9 := by
  show (wordLea dr offset9) &&& (15#4 ++ 0#3 ++ 0#9) = _
  rw [wordLea]
  repeat rw [append_and]
  simp

theorem wordTrap_mask (vector8 : BitVec 8) : wordTrap vector8 &&& 0xF000#16 = 15#4 ++ 0#4 ++ 0#8 := by
  show (wordTrap vector8) &&& (15#4 ++ 0#4 ++ 0#8) = _
  rw [wordTrap]
  repeat rw [append_and]
  simp

theorem wordShf_mask_left (dr sr : RegNum) (amount4 : BitVec 4) : wordShf dr sr false false amount4 &&& 0xF020#16 = 13#4 ++ 0#3 ++ 0#3 ++ 0#1 ++ 0#1 ++ 0#4 := by
  show (wordShf dr sr false false amount4) &&& (15#4 ++ 0#3 ++ 0#3 ++ 1#1 ++ 0#1 ++ 0#4) = _
  rw [wordShf]
  repeat rw [append_and]
  simp [bit]

theorem wordShf_mask_logical (dr sr : RegNum) (amount4 : BitVec 4) : wordShf dr sr true false amount4 &&& 0xF030#16 = 13#4 ++ 0#3 ++ 0#3 ++ 1#1 ++ 0#1 ++ 0#4 := by
  show (wordShf dr sr true false amount4) &&& (15#4 ++ 0#3 ++ 0#3 ++ 1#1 ++ 1#1 ++ 0#4) = _
  rw [wordShf]
  repeat rw [append_and]
  simp [bit]

theorem wordShf_mask_arith (dr sr : RegNum) (amount4 : BitVec 4) : wordShf dr sr true true amount4 &&& 0xF030#16 = 13#4 ++ 0#3 ++ 0#3 ++ 1#1 ++ 1#1 ++ 0#4 := by
  show (wordShf dr sr true true amount4) &&& (15#4 ++ 0#3 ++ 0#3 ++ 1#1 ++ 1#1 ++ 0#4) = _
  rw [wordShf]
  repeat rw [append_and]
  simp [bit]

theorem wordOpi_mask_not (dr sr : RegNum) : wordOpi 0b1001#4 dr sr 0b11111#5 &&& 0xF03F#16 = 9#4 ++ 0#3 ++ 0#3 ++ 1#1 ++ 31#5 := by
  show (wordOpi 0b1001#4 dr sr 0b11111#5) &&& (15#4 ++ 0#3 ++ 0#3 ++ 1#1 ++ 31#5) = _
  rw [wordOpi]
  repeat rw [append_and]
  simp

/-! ### The constructors -/

theorem add (dr sr1 sr2 : RegNum) : Statement (.add dr sr1 sr2) :=
  of_pattern ⟨.add, 0x1000#16, 0xF020#16⟩ (by decide) rfl (wordOpr_mask _ _ _ _)

theorem addImm (dr sr1 : RegNum) (imm5 : BitVec 5) : Statement (.addImm dr sr1 imm5) :=
  of_pattern ⟨.addImm, 0x1020#16, 0xF020#16⟩ (by decide) rfl (wordOpi_mask _ _ _ _)

theorem and (dr sr1 sr2 : RegNum) : Statement (.and dr sr1 sr2) :=
  of_pattern ⟨.and, 0x5000#16, 0xF020#16⟩ (by decide) rfl (wordOpr_mask _ _ _ _)

theorem andImm (dr sr1 : RegNum) (imm5 : BitVec 5) : Statement (.andImm dr sr1 imm5) :=
  of_pattern ⟨.andImm, 0x5020#16, 0xF020#16⟩ (by decide) rfl (wordOpi_mask _ _ _ _)

theorem xor (dr sr1 sr2 : RegNum) : Statement (.xor dr sr1 sr2) :=
  of_pattern ⟨.xor, 0x9000#16, 0xF020#16⟩ (by decide) rfl (wordOpr_mask _ _ _ _)

theorem xorImm (dr sr1 : RegNum) (imm5 : BitVec 5) : Statement (.xorImm dr sr1 imm5) :=
  of_pattern ⟨.xorImm, 0x9020#16, 0xF020#16⟩ (by decide) rfl (wordOpi_mask _ _ _ _)

theorem not (dr sr : RegNum) : Statement (.not dr sr) :=
  of_pattern ⟨.not, 0x903F#16, 0xF03F#16⟩ (by decide) rfl (wordOpi_mask_not _ _)

theorem lshf (dr sr : RegNum) (amount4 : BitVec 4) : Statement (.lshf dr sr amount4) :=
  of_pattern ⟨.lshf, 0xD000#16, 0xF020#16⟩ (by decide) rfl (wordShf_mask_left _ _ _)

theorem rshfl (dr sr : RegNum) (amount4 : BitVec 4) : Statement (.rshfl dr sr amount4) :=
  of_pattern ⟨.rshfl, 0xD020#16, 0xF030#16⟩ (by decide) rfl (wordShf_mask_logical _ _ _)

theorem rshfa (dr sr : RegNum) (amount4 : BitVec 4) : Statement (.rshfa dr sr amount4) :=
  of_pattern ⟨.rshfa, 0xD030#16, 0xF030#16⟩ (by decide) rfl (wordShf_mask_arith _ _ _)

theorem br (n z p : Bool) (offset9 : BitVec 9) : Statement (.br n z p offset9) :=
  of_pattern ⟨.br, 0x0000#16, 0xF000#16⟩ (by decide) rfl (wordBr_mask _ _ _ _)

theorem jmp (baseR : RegNum) : Statement (.jmp baseR) :=
  of_pattern ⟨.jmp, 0xC000#16, 0xF000#16⟩ (by decide) rfl (wordJmp_mask _)

theorem ret : Statement .ret :=
  of_pattern ⟨.ret, 0xC1C0#16, 0xF1C0#16⟩ (by decide) rfl (rfl)

theorem jsr (offset11 : BitVec 11) : Statement (.jsr offset11) :=
  of_pattern ⟨.jsr, 0x4800#16, 0xF800#16⟩ (by decide) rfl (wordJsr_mask _)

theorem jsrr (baseR : RegNum) : Statement (.jsrr baseR) :=
  of_pattern ⟨.jsrr, 0x4000#16, 0xF800#16⟩ (by decide) rfl (wordJsrr_mask _)

theorem ldb (dr baseR : RegNum) (offset6 : BitVec 6) : Statement (.ldb dr baseR offset6) :=
  of_pattern ⟨.ldb, 0x2000#16, 0xF000#16⟩ (by decide) rfl (wordLdSt_mask _ _ _ _)

theorem stb (sr baseR : RegNum) (offset6 : BitVec 6) : Statement (.stb sr baseR offset6) :=
  of_pattern ⟨.stb, 0x3000#16, 0xF000#16⟩ (by decide) rfl (wordLdSt_mask _ _ _ _)

theorem ldr (dr baseR : RegNum) (offset6 : BitVec 6) : Statement (.ldr dr baseR offset6) :=
  of_pattern ⟨.ldr, 0x6000#16, 0xF000#16⟩ (by decide) rfl (wordLdSt_mask _ _ _ _)

theorem str (sr baseR : RegNum) (offset6 : BitVec 6) : Statement (.str sr baseR offset6) :=
  of_pattern ⟨.str, 0x7000#16, 0xF000#16⟩ (by decide) rfl (wordLdSt_mask _ _ _ _)

theorem ldi (dr baseR : RegNum) (offset6 : BitVec 6) : Statement (.ldi dr baseR offset6) :=
  of_pattern ⟨.ldi, 0xA000#16, 0xF000#16⟩ (by decide) rfl (wordLdSt_mask _ _ _ _)

theorem sti (sr baseR : RegNum) (offset6 : BitVec 6) : Statement (.sti sr baseR offset6) :=
  of_pattern ⟨.sti, 0xB000#16, 0xF000#16⟩ (by decide) rfl (wordLdSt_mask _ _ _ _)

theorem lea (dr : RegNum) (offset9 : BitVec 9) : Statement (.lea dr offset9) :=
  of_pattern ⟨.lea, 0xE000#16, 0xF000#16⟩ (by decide) rfl (wordLea_mask _ _)

theorem trap (vector8 : BitVec 8) : Statement (.trap vector8) :=
  of_pattern ⟨.trap, 0xF000#16, 0xF000#16⟩ (by decide) rfl (wordTrap_mask _)

theorem getc : Statement .getc :=
  of_pattern ⟨.getc, 0xF020#16, 0xF0FF#16⟩ (by decide) rfl (rfl)

theorem out : Statement .out :=
  of_pattern ⟨.out, 0xF021#16, 0xF0FF#16⟩ (by decide) rfl (rfl)

theorem puts : Statement .puts :=
  of_pattern ⟨.puts, 0xF022#16, 0xF0FF#16⟩ (by decide) rfl (rfl)

theorem inn : Statement .inn :=
  of_pattern ⟨.inn, 0xF023#16, 0xF0FF#16⟩ (by decide) rfl (rfl)

theorem putsp : Statement .putsp :=
  of_pattern ⟨.putsp, 0xF024#16, 0xF0FF#16⟩ (by decide) rfl (rfl)

theorem halt : Statement .halt :=
  of_pattern ⟨.halt, 0xF025#16, 0xF0FF#16⟩ (by decide) rfl (rfl)

theorem rti : Statement .rti :=
  of_pattern ⟨.rti, 0x8000#16, 0xF000#16⟩ (by decide) rfl (rfl)

end Sys2Proof.Laws.RowPattern
end

