-- ==== Sys2Proof/Laws/Scan.lean ====
section
/-! SUPPORT. What the two scans give, said once each: the characters before the first terminator, when one comes within
the fuel, and nothing otherwise. -/

namespace Sys2Proof.Machine

theorem add_ofNat_succ (a : Word) (k : Nat) : a + BitVec.ofNat 16 (k + 1) = a + 1#16 + BitVec.ofNat 16 k := by
  rw [BitVec.ofNat_add, add_comm (BitVec.ofNat 16 k), ← add_assoc]

/-- PUTS: the first zero word is the n-th, within the fuel. -/
theorem putsScan_of_first_zero {m : Memory} {fuel n : Nat} {a : Word}
    (hzero : m.readWord (a + BitVec.ofNat 16 n) = 0#16)
    (hbefore : ∀ k < n, m.readWord (a + BitVec.ofNat 16 k) ≠ 0#16) (hfuel : n < fuel) :
    putsScan m fuel a = some ((List.range n).map fun k => lowByte (m.readWord (a + BitVec.ofNat 16 k))) := by
  induction fuel generalizing a n with
  | zero => omega
  | succ fuel ih =>
    unfold putsScan
    cases n with
    | zero => simp at hzero; simp [hzero]
    | succ n =>
      have hfirst : m.readWord a ≠ 0#16 := by simpa using hbefore 0 (by omega)
      simp only [hfirst, if_false]
      rw [ih (n := n) (by rw [← add_ofNat_succ]; exact hzero)
        (fun k hk => by rw [← add_ofNat_succ]; exact hbefore _ (by omega)) (by omega)]
      have hshift : (fun k => lowByte (m.readWord (a + 1#16 + BitVec.ofNat 16 k))) =
          (fun k => lowByte (m.readWord (a + BitVec.ofNat 16 k))) ∘ Nat.succ :=
        funext fun k => by rw [Function.comp, Nat.succ_eq_add_one, add_ofNat_succ a k]
      rw [List.range_succ_eq_map, List.map_cons, List.map_map, hshift]
      simp

/-- PUTS: no zero word within the fuel. -/
theorem putsScan_eq_none {m : Memory} {fuel : Nat} {a : Word}
    (h : ∀ k < fuel, m.readWord (a + BitVec.ofNat 16 k) ≠ 0#16) : putsScan m fuel a = none := by
  induction fuel generalizing a with
  | zero => rfl
  | succ fuel ih =>
    unfold putsScan
    have hfirst : m.readWord a ≠ 0#16 := by simpa using h 0 (by omega)
    simp only [hfirst, if_false]
    rw [ih fun k hk => by rw [← add_ofNat_succ]; exact h _ (by omega)]
    rfl

theorem lowKey_mod (a : Word) : Memory.lowKey a % byteKeys = Memory.lowKey a := Nat.mod_eq_of_lt (Memory.lowKey_lt a)

theorem lowKey_succ_mod (a : Word) : (Memory.lowKey a + 1) % byteKeys = Memory.highKey a :=
  Nat.mod_eq_of_lt (Memory.highKey_lt a)

/-- The byte keys of the next word are two further, modulo the memory's size. -/
theorem lowKey_next (a : Word) (k : Nat) :
    (Memory.lowKey (a + 1#16) + k) % byteKeys = (Memory.lowKey a + (k + 2)) % byteKeys := by
  unfold Memory.lowKey byteKeys
  simp [BitVec.toNat_add]
  omega

/-- PUTSP: the first zero byte is the n-th from the low byte of word a, within the fuel. -/
theorem putspScan_of_first_zero {m : Memory} {fuel n : Nat} {a : Word}
    (hzero : m.readByte ((Memory.lowKey a + n) % byteKeys) = 0#8)
    (hbefore : ∀ k < n, m.readByte ((Memory.lowKey a + k) % byteKeys) ≠ 0#8) (hfuel : n < 2 * fuel) :
    putspScan m fuel a = some ((List.range n).map fun k => m.readByte ((Memory.lowKey a + k) % byteKeys)) := by
  induction fuel generalizing a n with
  | zero => omega
  | succ fuel ih =>
    unfold putspScan
    simp only [lowByte_readWord, highByte_readWord]
    match n with
    | 0 => rw [add_zero, lowKey_mod] at hzero; simp [hzero]
    | 1 =>
      have hlow := hbefore 0 (by omega)
      rw [add_zero, lowKey_mod] at hlow
      rw [lowKey_succ_mod] at hzero
      simp [hzero, hlow, lowKey_mod]
    | n + 2 =>
      have hlow := hbefore 0 (by omega)
      rw [add_zero, lowKey_mod] at hlow
      have hhigh := hbefore 1 (by omega)
      rw [lowKey_succ_mod] at hhigh
      simp only [hlow, hhigh, if_false]
      rw [ih (n := n) (by rw [lowKey_next]; exact hzero)
        (fun k hk => by rw [lowKey_next]; exact hbefore _ (by omega)) (by omega)]
      simp only [List.range_succ_eq_map (n := n + 1), List.range_succ_eq_map (n := n)]
      simp [lowKey_next, Function.comp_def, lowKey_mod, lowKey_succ_mod]

/-- PUTSP: no zero byte within the fuel. -/
theorem putspScan_eq_none {m : Memory} {fuel : Nat} {a : Word}
    (h : ∀ k < 2 * fuel, m.readByte ((Memory.lowKey a + k) % byteKeys) ≠ 0#8) : putspScan m fuel a = none := by
  induction fuel generalizing a with
  | zero => rfl
  | succ fuel ih =>
    unfold putspScan
    simp only [lowByte_readWord, highByte_readWord]
    have hlow := h 0 (by omega)
    rw [add_zero, lowKey_mod] at hlow
    have hhigh := h 1 (by omega)
    rw [lowKey_succ_mod] at hhigh
    simp only [hlow, hhigh, if_false]
    rw [ih fun k hk => by rw [lowKey_next]; exact h _ (by omega)]
    rfl

end Sys2Proof.Machine
end

