-- ==== Sys2Proof/Laws/Step.lean ====
section
/-! SUPPORT. What one step can do, said once: the inversion lemma of `nextInstruction`. -/

namespace Sys2Proof.Machine

theorem endInstruction_of_some {t : State} {e : FatalError} (h : t.faultMark = some e) (p : Word) (v : Variant) :
    endInstruction p v t = t := by
  unfold endInstruction; rw [h]

theorem endInstruction_of_none {t : State} (h : t.faultMark = none) (p : Word) (v : Variant) :
    endInstruction p v t = emit (.instructionEnd p v) (if t.pc = p then t else emit (.pcChange p t.pc) t) := by
  unfold endInstruction; rw [h]

/-- endInstruction writes the trace only. -/
theorem endInstruction_eq (p : Word) (v : Variant) (t : State) :
    ∃ evs, endInstruction p v t = { t with trace := t.trace ++ evs } := by
  unfold endInstruction
  split
  · exact ⟨[], by simp⟩
  · split
    · exact ⟨_, rfl⟩
    · exact ⟨[.pcChange p t.pc, .instructionEnd p v], by simp [emit]⟩

/-! endInstruction leaves every field but the trace. -/

@[simp] theorem endInstruction_regs (p : Word) (v : Variant) (t : State) : (endInstruction p v t).regs = t.regs := by
  obtain ⟨evs, h⟩ := endInstruction_eq p v t; rw [h]
@[simp] theorem endInstruction_pc (p : Word) (v : Variant) (t : State) : (endInstruction p v t).pc = t.pc := by
  obtain ⟨evs, h⟩ := endInstruction_eq p v t; rw [h]
@[simp] theorem endInstruction_cc (p : Word) (v : Variant) (t : State) : (endInstruction p v t).cc = t.cc := by
  obtain ⟨evs, h⟩ := endInstruction_eq p v t; rw [h]
@[simp] theorem endInstruction_mem (p : Word) (v : Variant) (t : State) : (endInstruction p v t).mem = t.mem := by
  obtain ⟨evs, h⟩ := endInstruction_eq p v t; rw [h]
@[simp] theorem endInstruction_faultMark (p : Word) (v : Variant) (t : State) : (endInstruction p v t).faultMark = t.faultMark := by
  obtain ⟨evs, h⟩ := endInstruction_eq p v t; rw [h]
@[simp] theorem endInstruction_halted (p : Word) (v : Variant) (t : State) : (endInstruction p v t).halted = t.halted := by
  obtain ⟨evs, h⟩ := endInstruction_eq p v t; rw [h]
@[simp] theorem endInstruction_input (p : Word) (v : Variant) (t : State) : (endInstruction p v t).input = t.input := by
  obtain ⟨evs, h⟩ := endInstruction_eq p v t; rw [h]
@[simp] theorem endInstruction_drawn (p : Word) (v : Variant) (t : State) : (endInstruction p v t).drawn = t.drawn := by
  obtain ⟨evs, h⟩ := endInstruction_eq p v t; rw [h]
@[simp] theorem endInstruction_ioLog (p : Word) (v : Variant) (t : State) : (endInstruction p v t).ioLog = t.ioLog := by
  obtain ⟨evs, h⟩ := endInstruction_eq p v t; rw [h]

theorem nextInstruction_of_mark {s : State} {e : FatalError} (h : s.faultMark = some e) (strict : Bool) :
    nextInstruction strict s = .fault (.fatal e) := by
  unfold nextInstruction; rw [h]

theorem nextInstruction_of_halted {s : State} (hm : s.faultMark = none) (hh : s.halted = true) (strict : Bool) :
    nextInstruction strict s = .next s := by
  unfold nextInstruction ioIsHalted; rw [hm, hh]; rfl

theorem nextInstruction_of_error {strict : Bool} {s : State} {reason : DecodeReason} (hr : Running s)
    (hd : decode strict (fetchWord s) = .error reason) :
    nextInstruction strict s = .next (raiseFatal (.decodeError s.pc (fetchWord s) reason) s) := by
  unfold nextInstruction ioIsHalted; rw [hr.1, hr.2]; simp [hd]

theorem nextInstruction_of_ok {strict : Bool} {s : State} {i : Instr} (hr : Running s)
    (hd : decode strict (fetchWord s) = .ok i) : nextInstruction strict s = runInstruction i s := by
  unfold nextInstruction ioIsHalted; rw [hr.1, hr.2]; simp [hd]

theorem nextInstruction_of_exec_fault {strict : Bool} {s : State} {i : Instr} {r : Fault} (hr : Running s)
    (hd : decode strict (fetchWord s) = .ok i) (he : exec i (emit (.instructionStart s.pc i.variant) s) = .fault r) :
    nextInstruction strict s = .fault r := by
  rw [nextInstruction_of_ok hr hd, runInstruction, he]

/-- The ways a step can have a successor (R306): the halted no-op, a DecodeError, or an executed instruction. -/
theorem nextInstruction_cases {strict : Bool} {s t : State} (h : nextInstruction strict s = .next t) :
    (s.faultMark = none ∧ s.halted = true ∧ t = s) ∨
    (Running s ∧ ∃ reason, decode strict (fetchWord s) = .error reason ∧
      t = raiseFatal (.decodeError s.pc (fetchWord s) reason) s) ∨
    (Running s ∧ ∃ i u, decode strict (fetchWord s) = .ok i ∧
      exec i (emit (.instructionStart s.pc i.variant) s) = .next u ∧ t = endInstruction s.pc i.variant u) := by
  cases hm : s.faultMark with
  | some e => rw [nextInstruction_of_mark hm] at h; cases h
  | none =>
    cases hh : s.halted with
    | true => rw [nextInstruction_of_halted hm hh] at h; cases h; exact .inl ⟨rfl, rfl, rfl⟩
    | false =>
      have hr : Running s := ⟨hm, hh⟩
      cases hd : decode strict (fetchWord s) with
      | error reason =>
        rw [nextInstruction_of_error hr hd] at h; cases h
        exact .inr (.inl ⟨hr, reason, rfl, rfl⟩)
      | ok i =>
        rw [nextInstruction_of_ok hr hd] at h
        unfold runInstruction at h
        split at h <;> cases h
        exact .inr (.inr ⟨hr, i, _, rfl, by assumption, rfl⟩)

/-! ### run (R307) -/

theorem run_zero (strict : Bool) (s : State) : run strict 0 s = .ok 0 s := rfl

theorem run_of_halted {s : State} (h : s.halted = true) (strict : Bool) (max : Nat) : run strict max s = .ok 0 s := by
  cases max with
  | zero => rfl
  | succ max => unfold run ioIsHalted; rw [h]; rfl

theorem run_succ_of_next {strict : Bool} {s t : State} (hs : s.halted = false) (h : nextInstruction strict s = .next t)
    (ht : t.faultMark = none) (max : Nat) : run strict (max + 1) s = (run strict max t).countOne := by
  conv => lhs; unfold run ioIsHalted
  rw [hs, h]
  simp [ht]

theorem run_succ_of_error {strict : Bool} {s t : State} {e : FatalError} (hs : s.halted = false)
    (h : nextInstruction strict s = .next t) (ht : t.faultMark = some e) (max : Nat) :
    run strict (max + 1) s = .err e t := by
  conv => lhs; unfold run ioIsHalted
  rw [hs, h]
  simp [ht]

theorem run_succ_of_mark {s : State} {e : FatalError} (hs : s.halted = false) (h : s.faultMark = some e) (strict : Bool)
    (max : Nat) : run strict (max + 1) s = .err e s := by
  conv => lhs; unfold run ioIsHalted
  rw [hs, nextInstruction_of_mark h]
  rfl

theorem run_succ_of_scan {strict : Bool} {s : State} (hs : s.halted = false)
    (h : nextInstruction strict s = .fault .scanNeverStops) (max : Nat) : run strict (max + 1) s = .hang := by
  conv => lhs; unfold run ioIsHalted
  rw [hs, h]
  rfl

@[simp] theorem RunReturn.countOne_ok (count : Nat) (s : State) : (RunReturn.ok count s).countOne = .ok (count + 1) s := rfl
@[simp] theorem RunReturn.countOne_err (e : FatalError) (s : State) : (RunReturn.err e s).countOne = .err e s := rfl
@[simp] theorem RunReturn.countOne_hang : RunReturn.hang.countOne = .hang := rfl

end Sys2Proof.Machine
end

