-- ==== Sys2Proof/Tests/Slice0.lean ====
section
/-! SUPPORT. The model's own tests. Expected results are the spec's: spec/95_test_vectors.md and the worked examples of the
instruction rules, quoted at each test. The last part holds one witness per hypothesis of the statements. -/

namespace Sys2Proof.Machine.Tests

/-! ### Small states -/

/-- A machine at PC 0x3000 with the given flags, registers and memory words. -/
def machine (cc : Flags) (regs : List (RegNum × Word)) (words : List (Word × Word)) : State :=
  let s : State := { State.reset with pc := 0x3000#16, cc := cc }
  words.foldl (fun s w => debugWrite w.1 w.2 s) (regs.foldl (fun s r => withReg r.1 r.2 s) s)

def flagN : Flags := ⟨true, false, false⟩
def flagZ : Flags := ⟨false, true, false⟩
def flagP : Flags := ⟨false, false, true⟩
def flagNone : Flags := ⟨false, false, false⟩

/-- What a test looks at in a next state. -/
def seen {α : Type} (f : State → α) : Host.Outcome State Fault Refusal → Option α
  | .next t => some (f t)
  | .fault _ => none
  | .refused _ => none

/-- The step on one word at PC 0x3000. -/
def stepOn (w : Word) (s : State) : Host.Outcome State Fault Refusal := step (debugWrite s.pc w s)

/-! ### Well-formedness: each check refuses an ill-formed term (R95, R99) -/

theorem test_illformed_xorImm_allOnes : (Instr.xorImm 1 2 0b11111).wellFormed = false := by decide
theorem test_illformed_jmp_seven : (Instr.jmp 7).wellFormed = false := by decide
theorem test_illformed_trap_mapped :
    ([0x20, 0x21, 0x22, 0x23, 0x24, 0x25].map fun v => (Instr.trap v).wellFormed) = List.replicate 6 false := by decide
theorem test_illformed_not_constructed :
    (Instr.jmp 7).construct? = none ∧ (Instr.jmp 6).construct? = some (.jmp 6) := by decide
/-- R99: imm5 is -16..+15. -/
theorem test_operand_range : signedOperand? 5 (-17) = none ∧ signedOperand? 5 (-16) = some 0b10000#5 ∧
    signedOperand? 5 15 = some 0b01111#5 ∧ signedOperand? 5 16 = none ∧ unsignedOperand? 4 16 = none := by decide

/-! ### Decoding: every constructor by a word written out from R81 (E9, 2.1) -/

theorem test_decode_alu :
    decode false 0b0001_111_111_000_111#16 = .ok (.add 7 7 7) ∧
    decode false 0b0001_001_010_0_11_011#16 = .ok (.add 1 2 3) ∧
    decode false 0b0001_000_000_1_10000#16 = .ok (.addImm 0 0 0b10000#5) ∧
    decode false 0b0101_001_010_0_00_011#16 = .ok (.and 1 2 3) ∧
    decode false 0b0101_011_100_1_11111#16 = .ok (.andImm 3 4 0b11111#5) ∧
    decode false 0b1001_101_110_000_111#16 = .ok (.xor 5 6 7) ∧
    decode false 0b1001_000_000_1_11110#16 = .ok (.xorImm 0 0 0b11110#5) ∧
    decode false 0b1001_111_111_1_11111#16 = .ok (.not 7 7) := by decide

theorem test_decode_shift :
    decode false 0b1101_000_000_0_0_1111#16 = .ok (.lshf 0 0 15) ∧
    decode false 0b1101_001_010_0_1_0001#16 = .ok (.lshf 1 2 1) ∧
    decode false 0b1101_111_111_1_0_0000#16 = .ok (.rshfl 7 7 0) ∧
    decode false 0b1101_111_111_1_1_1111#16 = .ok (.rshfa 7 7 15) := by decide

theorem test_decode_control :
    decode false 0b0000_1_0_1_100000000#16 = .ok (.br true false true 0b100000000#9) ∧
    decode false 0b1100_000_110_000000#16 = .ok (.jmp 6) ∧
    decode false 0b1100_000_111_111111#16 = .ok .ret ∧
    decode false 0b0100_1_01111111111#16 = .ok (.jsr 0b01111111111#11) ∧
    decode false 0b0100_0_11_111_111111#16 = .ok (.jsrr 7) := by decide

theorem test_decode_memory :
    decode false 0b0010_111_111_100000#16 = .ok (.ldb 7 7 0b100000#6) ∧
    decode false 0b0011_000_000_011111#16 = .ok (.stb 0 0 0b011111#6) ∧
    decode false 0b0110_001_110_111111#16 = .ok (.ldr 1 6 0b111111#6) ∧
    decode false 0b0111_111_000_000000#16 = .ok (.str 7 0 0) ∧
    decode false 0b1010_010_011_011111#16 = .ok (.ldi 2 3 0b011111#6) ∧
    decode false 0b1011_100_101_100000#16 = .ok (.sti 4 5 0b100000#6) ∧
    decode false 0b1110_111_100000000#16 = .ok (.lea 7 0b100000000#9) := by decide

theorem test_decode_trap :
    decode false 0b1111_0000_00100000#16 = .ok .getc ∧ decode false 0b1111_0000_00100001#16 = .ok .out ∧
    decode false 0b1111_0000_00100010#16 = .ok .puts ∧ decode false 0b1111_0000_00100011#16 = .ok .inn ∧
    decode false 0b1111_0000_00100100#16 = .ok .putsp ∧ decode false 0b1111_1111_00100101#16 = .ok .halt ∧
    decode false 0b1111_0000_00100110#16 = .ok (.trap 0x26) ∧ decode false 0b1111_0000_11111111#16 = .ok (.trap 0xFF) ∧
    decode false 0b1000_111111111111#16 = .ok .rti := by decide

/-- The column "strict" of 2.1. -/
theorem test_decode_strict :
    decode true 0x129B#16 = .error .nonzeroUnusedBits ∧ decode true 0xC1FF#16 = .error .nonzeroUnusedBits ∧
    decode true 0x47FF#16 = .error .nonzeroUnusedBits ∧ decode true 0xD010#16 = .error .nonzeroUnusedBits ∧
    decode true 0xFF25#16 = .error .nonzeroUnusedBits ∧ decode true 0x903F#16 = .ok (.not 0 0) := by decide

/-- The encodings of E9. -/
theorem test_encode_words :
    encode (.add 7 7 7) = 0x1FC7#16 ∧ encode (.not 7 7) = 0x9FFF#16 ∧ encode (.rshfa 7 7 15) = 0xDFFF#16 ∧
    encode (.br true true true 0b100000000#9) = 0x0F00#16 ∧ encode .ret = 0xC1C0#16 ∧
    encode (.jsr 0b10000000000#11) = 0x4C00#16 ∧ encode (.jsrr 7) = 0x41C0#16 ∧ encode (.sti 4 5 0b100000#6) = 0xB960#16 ∧
    encode (.lea 7 0b100000000#9) = 0xEF00#16 ∧ encode (.trap 0xFF) = 0xF0FF#16 ∧ encode .rti = 0x8000#16 := by decide

theorem test_decodeTableWord : decodeTableWord 16 0xF025 = some .halt := by decide

/-! ### The ALU (3.1) -/

theorem test_add_overflow_wraps :
    seen (fun t => (t.reg 1, t.cc)) (stepOn 0x1283#16 (machine flagP [(2, 0x7FFF#16), (3, 0x0001#16)] [])) =
      some (0x8000#16, flagN) := by decide
theorem test_add_doubles_itself :
    seen (fun t => (t.reg 1, t.cc)) (stepOn 0x1241#16 (machine flagP [(1, 0x4000#16)] [])) =
      some (0x8000#16, flagN) := by decide
theorem test_addImm_negative :
    seen (fun t => (t.reg 1, t.cc)) (stepOn 0x12BD#16 (machine flagP [(2, 0x0001#16)] [])) =
      some (0xFFFE#16, flagN) := by decide
theorem test_and :
    seen (fun t => (t.reg 1, t.cc)) (stepOn 0x5283#16 (machine flagN [(2, 0xF0F0#16), (3, 0x0FF0#16)] [])) =
      some (0x00F0#16, flagP) := by decide
theorem test_andImm_sign_extends :
    seen (fun t => (t.reg 1, t.cc)) (stepOn 0x52B0#16 (machine flagP [(2, 0xABCD#16)] [])) =
      some (0xABC0#16, flagN) := by decide
theorem test_xor_self :
    seen (fun t => (t.reg 1, t.cc)) (stepOn 0x9282#16 (machine flagP [(2, 0x1234#16)] [])) =
      some (0x0000#16, flagZ) := by decide
theorem test_xorImm_flips_high_byte :
    seen (fun t => (t.reg 1, t.cc)) (stepOn 0x92BE#16 (machine flagP [(2, 0x00FF#16)] [])) =
      some (0xFF01#16, flagN) := by decide
theorem test_not :
    seen (fun t => (t.reg 3, t.cc)) (stepOn 0x973F#16 (machine flagP [(4, 0x00FF#16)] [])) =
      some (0xFF00#16, flagN) := by decide
theorem test_lshf :
    seen (fun t => (t.reg 1, t.cc)) (stepOn 0xD283#16 (machine flagP [(2, 0x1234#16)] [])) =
      some (0x91A0#16, flagN) := by decide
theorem test_rshfl :
    seen (fun t => (t.reg 1, t.cc)) (stepOn 0xD2A4#16 (machine flagN [(2, 0x8421#16)] [])) =
      some (0x0842#16, flagP) := by decide
theorem test_rshfa :
    seen (fun t => (t.reg 1, t.cc)) (stepOn 0xD2B4#16 (machine flagP [(2, 0x8421#16)] [])) =
      some (0xF842#16, flagN) := by decide
theorem test_rshfa_to_zero :
    seen (fun t => (t.reg 1, t.cc)) (stepOn 0xD2BF#16 (machine flagP [(2, 0x7FFF#16)] [])) =
      some (0x0000#16, flagZ) := by decide

/-- The trace of ADD R1,R2,#-3 (3.1). -/
theorem test_add_trace :
    seen (fun t => t.trace) (stepOn 0x12BD#16 (machine flagP [(2, 0x0001#16)] [])) =
      some [.instructionStart 0x3000#16 (.add 1 2 (.imm 0b11101#5)), .registerWrite 1 0x0000#16 0xFFFE#16,
        .conditionChange flagN, .pcChange 0x3000#16 0x3001#16,
        .instructionEnd 0x3000#16 (.add 1 2 (.imm 0b11101#5))] := by decide

/-! ### Control transfer (3.2) -/

theorem test_br_or_of_ands :
    seen (fun t => t.pc) (stepOn 0x0C05#16 (machine flagN [] [])) = some 0x3006#16 ∧
    seen (fun t => t.pc) (stepOn 0x0C05#16 (machine flagP [] [])) = some 0x3001#16 := by decide
theorem test_br_no_flag_yet :
    seen (fun t => t.pc) (stepOn 0x0EFF#16 (machine flagNone [] [])) = some 0x3001#16 := by decide
theorem test_jmp :
    seen (fun t => t.pc) (stepOn 0xCEFF#16 (machine flagP [(3, 0x1235#16)] [])) = some 0x1235#16 := by decide
theorem test_ret :
    seen (fun t => t.pc) (stepOn 0xC1C0#16 (machine flagP [(7, 0x3001#16)] [])) = some 0x3001#16 := by decide
theorem test_jsr :
    seen (fun t => (t.reg 7, t.pc)) (stepOn 0x4C00#16 (machine flagP [] [])) = some (0x3001#16, 0x2801#16) := by decide
theorem test_jsrr_through_r7 :
    seen (fun t => (t.reg 7, t.pc)) (stepOn 0x41C0#16 (machine flagP [(7, 0x4000#16)] [])) =
      some (0x3001#16, 0x4000#16) := by decide

/-! ### Loads, stores, LEA (3.3) -/

theorem test_ldb_negative_high_byte :
    seen (fun t => (t.reg 1, t.cc)) (stepOn 0x22A0#16 (machine flagP [(2, 0x0041#16)] [(0x0010#16, 0x80FF#16)])) =
      some (0xFF80#16, flagN) := by decide
theorem test_ldb_address_wraps :
    seen (fun t => (t.reg 1, t.cc)) (stepOn 0x2281#16 (machine flagN [(2, 0xFFFF#16)] [(0x0000#16, 0x1234#16)])) =
      some (0x0034#16, flagP) := by decide
theorem test_stb_high_byte :
    seen (fun t => (memRead 0x0010#16 t, t.cc))
      (stepOn 0x3281#16 (machine flagP [(1, 0x00FF#16), (2, 0x0020#16)] [(0x0010#16, 0x4142#16)])) =
      some (0xFF42#16, flagP) := by decide
theorem test_stb_low_byte :
    seen (fun t => memRead 0x0010#16 t)
      (stepOn 0x3280#16 (machine flagP [(1, 0xABCD#16), (2, 0x0020#16)] [(0x0010#16, 0x4142#16)])) =
      some 0x41CD#16 := by decide
theorem test_ldr_doubles_the_offset :
    seen (fun t => (t.reg 1, t.cc)) (stepOn 0x6283#16 (machine flagP [(2, 0x4000#16)] [(0x4006#16, 0x8001#16)])) =
      some (0x8001#16, flagN) := by decide
theorem test_str :
    seen (fun t => (memRead 0x3FFE#16 t, t.cc)) (stepOn 0x72BF#16 (machine flagZ [(1, 0x1234#16), (2, 0x4000#16)] [])) =
      some (0x1234#16, flagZ) := by decide
theorem test_ldi :
    seen (fun t => (t.reg 1, t.cc)) (stepOn 0xA280#16 (machine flagN [(2, 0x4000#16)] [(0x4000#16, 0x4000#16)])) =
      some (0x4000#16, flagP) := by decide
theorem test_sti :
    seen (fun t => memRead 0x6000#16 t)
      (stepOn 0xB281#16 (machine flagP [(1, 0xBEEF#16), (2, 0x4000#16)] [(0x4002#16, 0x6000#16)])) =
      some 0xBEEF#16 := by decide
theorem test_lea :
    seen (fun t => (t.reg 1, t.cc)) (stepOn 0xE300#16 (machine flagN [] [])) = some (0x2E01#16, flagP) := by decide

/-! ### TRAP and RTI (3.4, part 5) -/

/-- The same machine with one queued input answer. -/
def withInput (answer : Option Byte) (s : State) : State := queueInput answer s

theorem test_getc_character :
    seen (fun t => (t.reg 0, t.cc, t.ioLog))
      (stepOn 0xF020#16 (withInput (some 0x41) (machine flagN [(0, 0x1234#16)] []))) =
      some (0x0041#16, flagN, [.readChar (some 0x41)]) := by decide
theorem test_getc_no_input :
    seen (fun t => (t.reg 0, t.pc)) (stepOn 0xF020#16 (withInput none (machine flagN [(0, 0x1234#16)] []))) =
      some (0x1234#16, 0x3001#16) := by decide
theorem test_out_zero_byte :
    seen (fun t => t.ioLog) (stepOn 0xF021#16 (machine flagP [(0, 0x0100#16)] [])) = some [.writeChar 0x00] := by decide
theorem test_puts_wraps :
    seen (fun t => t.ioLog)
      (stepOn 0xF022#16 (machine flagP [(0, 0xFFFF#16)] [(0xFFFF#16, 0x0041#16), (0x0000#16, 0x0042#16)])) =
      some [.writeChar 0x41, .writeChar 0x42] := by decide
theorem test_puts_low_byte_zero :
    seen (fun t => t.ioLog)
      (stepOn 0xF022#16 (machine flagP [(0, 0x0050#16)] [(0x0050#16, 0x0048#16), (0x0051#16, 0x0100#16)])) =
      some [.writeChar 0x48, .writeChar 0x00] := by decide
theorem test_in_echo_request :
    seen (fun t => (t.reg 0, t.ioLog)) (stepOn 0xF023#16 (withInput (some 0x7A) (machine flagP [] []))) =
      some (0x007A#16, [.readCharEcho (some 0x7A)]) := by decide
theorem test_putsp_low_byte_first :
    seen (fun t => t.ioLog)
      (stepOn 0xF024#16 (machine flagP [(0, 0x0050#16)] [(0x0050#16, 0x6948#16), (0x0051#16, 0x0021#16)])) =
      some [.writeChar 0x48, .writeChar 0x69, .writeChar 0x21] := by decide
theorem test_putsp_stops_at_low_zero :
    seen (fun t => t.ioLog)
      (stepOn 0xF024#16 (machine flagP [(0, 0x0050#16)] [(0x0050#16, 0x6948#16), (0x0051#16, 0x2100#16)])) =
      some [.writeChar 0x48, .writeChar 0x69] := by decide
theorem test_halt :
    seen (fun t => (t.halted, t.pc)) (stepOn 0xFF25#16 (machine flagP [] [])) = some (true, 0x3001#16) := by decide
theorem test_trap_unmapped :
    seen (fun t => (t.pc, t.cc, t.ioLog)) (stepOn 0xF099#16 (machine flagZ [] [])) = some (0x3001#16, flagZ, []) := by decide
/-- RTI with unused bits: Err(UnimplementedInstruction(0x3000, 0x8FFF)), PC = 0x3000, instruction_start only. -/
theorem test_rti :
    seen (fun t => (t.faultMark, t.pc, t.trace)) (stepOn 0x8FFF#16 (machine flagP [] [])) =
      some (some (.unimplementedInstruction 0x3000#16 0x8FFF#16), 0x3000#16,
        [.instructionStart 0x3000#16 .rti]) := by decide
/-- Under the strict setting the same word is a DecodeError instead (R267). -/
theorem test_rti_strict :
    stepReturn true (debugWrite 0x3000#16 0x8FFF#16 (machine flagP [] [])) =
      .err (.decodeError 0x3000#16 0x8FFF#16 .nonzeroUnusedBits) := by decide
/-- load_program([0x1111, 0x2222], 0xFFFF) wraps (part 5). -/
theorem test_load_program_wraps :
    let s := loadProgram [0x1111#16, 0x2222#16] 0xFFFF#16 State.reset
    memRead 0xFFFF#16 s = 0x1111#16 ∧ memRead 0x0000#16 s = 0x2222#16 ∧ s.pc = 0xFFFF#16 := by decide
theorem test_error_codes : errorCode none = 0 ∧ errorCode (some (.decodeError 0 0 .nonzeroUnusedBits)) = 1 ∧
    errorCode (some (.unimplementedInstruction 0 0)) = 2 ∧ errorCode (some .invalidMemoryAccess) = 3 := by decide

/-! ### Witnesses: states and operands that meet the hypotheses of the statements -/

/-- RoundTripLaw: a constructible instruction; a word with nonzero and one with zero unused bits that decode. -/
theorem witness_RoundTripLaw : (Instr.jmp 6).wellFormed = true ∧
    (decode false 0x129B#16 = .ok (.add 1 2 3) ∧ unusedBits 0x129B#16 ≠ 0#16) ∧
    (decode false 0x1283#16 = .ok (.add 1 2 3) ∧ unusedBits 0x1283#16 = 0#16) := by decide

/-- DecoderReadsTheFieldsOfEachFamily: a word for each clause. -/
theorem witness_DecoderReadsTheFields_alu :
    (fieldValue 0x1FC7 15 12 = 0b0001 ∧ fieldValue 0x1FC7 5 5 = 0) ∧
    (fieldValue 0x1FEF 15 12 = 0b0001 ∧ fieldValue 0x1FEF 5 5 = 1) ∧
    (fieldValue 0x5283 15 12 = 0b0101 ∧ fieldValue 0x5283 5 5 = 0) ∧
    (fieldValue 0x573F 15 12 = 0b0101 ∧ fieldValue 0x573F 5 5 = 1) ∧
    (fieldValue 0x9B87 15 12 = 0b1001 ∧ fieldValue 0x9B87 5 5 = 0) ∧
    (fieldValue 0x903E 15 12 = 0b1001 ∧ fieldValue 0x903E 5 5 = 1 ∧ fieldValue 0x903E 4 0 ≠ 0b11111) ∧
    (fieldValue 0x903F 15 12 = 0b1001 ∧ fieldValue 0x903F 5 5 = 1 ∧ fieldValue 0x903F 4 0 = 0b11111) ∧
    (fieldValue 0xD00F 15 12 = 0b1101 ∧ fieldValue 0xD00F 5 5 = 0) ∧
    (fieldValue 0xDFE0 15 12 = 0b1101 ∧ fieldValue 0xDFE0 5 5 = 1 ∧ fieldValue 0xDFE0 4 4 = 0) ∧
    (fieldValue 0xDFFF 15 12 = 0b1101 ∧ fieldValue 0xDFFF 5 5 = 1 ∧ fieldValue 0xDFFF 4 4 = 1) := by decide
theorem witness_DecoderReadsTheFields_rest :
    fieldValue 0x0F00 15 12 = 0b0000 ∧
    (fieldValue 0xC180 15 12 = 0b1100 ∧ fieldValue 0xC180 8 6 ≠ 7) ∧
    (fieldValue 0xC1C0 15 12 = 0b1100 ∧ fieldValue 0xC1C0 8 6 = 7) ∧
    (fieldValue 0x4C00 15 12 = 0b0100 ∧ fieldValue 0x4C00 11 11 = 1) ∧
    (fieldValue 0x41C0 15 12 = 0b0100 ∧ fieldValue 0x41C0 11 11 = 0) ∧
    fieldValue 0x2FE0 15 12 = 0b0010 ∧ fieldValue 0x63BF 15 12 = 0b0110 ∧ fieldValue 0xA4DF 15 12 = 0b1010 ∧
    fieldValue 0x301F 15 12 = 0b0011 ∧ fieldValue 0x7E00 15 12 = 0b0111 ∧ fieldValue 0xB960 15 12 = 0b1011 ∧
    fieldValue 0xEF00 15 12 = 0b1110 ∧ fieldValue 0x8000 15 12 = 0b1000 ∧ fieldValue 0xF0FF 15 12 = 0b1111 := by decide

/-- UnusedBitsAreIgnoredByDefault: all of JMP's unused bits. -/
theorem witness_UnusedBitsAreIgnored : 0x0E3F#16 &&& ~~~ unusedMask 0xC0C0#16 = 0#16 ∧ unusedBits 0xCEFF#16 ≠ 0#16 := by
  decide

/-- DecoderReturnsCanonicalInstructions, OpcodeTableWinnerIsTheDecodedRow: words that decode. -/
theorem witness_decoded : decode true 0x903F#16 = .ok (.not 0 0) ∧ decode false 0xF025#16 = .ok .halt := by decide

/-- OperandsAreRangeChecked: the ends of each range. -/
theorem witness_OperandsAreRangeChecked :
    signedOperand? 5 (-16) = some 0b10000#5 ∧ signedOperand? 6 31 = some 0b011111#6 ∧
    signedOperand? 9 (-256) = some 0b100000000#9 ∧ signedOperand? 11 1023 = some 0b01111111111#11 ∧
    unsignedOperand? 8 255 = some 0xFF#8 := by decide

/-- BrIsTakenOnAnyMatchingFlag: a taken and a not-taken branch. -/
theorem witness_Br : (true = true ∧ flagN.n = true) ∧
    ¬ ((false = true ∧ flagNone.n = true) ∨ (true = true ∧ flagNone.z = true) ∨ (true = true ∧ flagNone.p = true)) := by
  decide

/-- BrIsTakenOnAnyMatchingFlag, second part: an instruction other than BR that completes from two different flag triples. -/
theorem witness_notBr : (∀ n z p offset9, Instr.not 3 4 ≠ .br n z p offset9) ∧ flagSetting (.not 3 4) = true ∧
    seen (fun t => t.cc) (exec (.not 3 4) (machine flagP [] [])) = some flagN ∧
    seen (fun t => t.cc) (exec (.not 3 4) (withFlags flagNone (machine flagP [] []))) = some flagN := by
  refine ⟨?_, by decide, by decide, by decide⟩
  intro n z p offset9 h
  cases h

/-- StbStoresOneByte and StrAndStiStoreWords: the addresses stored to. -/
theorem witness_stores : byteAddress 0xFFFF#16 0b000001#6 = 0x0000#16 ∧ wordAddress 0x4000#16 0b111111#6 = 0x3FFE#16 := by
  decide

/-- PutsWritesWordsUpToTheZeroWord, PutspWritesBytesUpToTheZeroByte: reset memory has a zero word and a zero byte. -/
theorem witness_terminators : State.reset.mem.readWord 0xFFFF#16 = 0#16 ∧ State.reset.mem.readByte 131071 = 0#8 ∧
    131071 < byteKeys := by decide

/-- A memory whose first n bytes are 0x01. -/
def onesMemory (n : Nat) : Memory := ⟨(List.range n).map fun k => (k, 0x01#8)⟩

/-- A memory with no zero byte. -/
def denseMemory : Memory := onesMemory byteKeys

theorem lookupCell_range (n k : Nat) (hk : k < n) :
    lookupCell ((List.range n).map fun k => (k, 0x01#8)) k = 0x01#8 := by
  have h : ∀ (l : List Nat), k ∈ l → lookupCell (l.map fun k => (k, 0x01#8)) k = 0x01#8 := by
    intro l
    induction l with
    | nil => intro h; cases h
    | cons a rest ih =>
      intro h
      by_cases ha : a = k
      · simp [lookupCell, ha]
      · rcases List.mem_cons.1 h with h | h
        · exact absurd h.symm ha
        · simp [lookupCell, ha, ih h]
  exact h _ (List.mem_range.2 hk)

theorem onesMemory_readByte (n k : Nat) (hk : k < n) : (onesMemory n).readByte k = 0x01#8 := lookupCell_range n k hk

theorem denseMemory_readByte {k : Nat} (hk : k < byteKeys) : denseMemory.readByte k = 0x01#8 := by
  rw [denseMemory]; exact onesMemory_readByte byteKeys k hk

theorem denseMemory_readWord (a : Word) : denseMemory.readWord a = 0x0101#16 := by
  unfold Memory.readWord
  rw [denseMemory_readByte (Memory.highKey_lt a), denseMemory_readByte (Memory.lowKey_lt a)]
  decide

/-- ScansAreStuckExactlyWithoutATerminator: a memory with no zero word and no zero byte, on which both services are stuck. -/
theorem witness_endlessScan : let s : State := { State.reset with mem := denseMemory }
    (∀ a, s.mem.readWord a ≠ 0#16) ∧ (∀ k < byteKeys, s.mem.readByte k ≠ 0#8) ∧
    exec .puts s = .fault .scanNeverStops ∧ exec .putsp s = .fault .scanNeverStops := by
  intro s
  have hword : ∀ a, s.mem.readWord a ≠ 0#16 := fun a => by
    rw [show s.mem = denseMemory from rfl, denseMemory_readWord]; decide
  have hbyte : ∀ k < byteKeys, s.mem.readByte k ≠ 0#8 := fun k hk => by
    rw [show s.mem = denseMemory from rfl, denseMemory_readByte hk]; decide
  refine ⟨hword, hbyte, ?_, ?_⟩
  · rw [exec_puts, putsScan_eq_none fun k _ => hword _]; rfl
  · rw [exec_putsp, putspScan_eq_none fun k _ => hbyte _ (Nat.mod_lt _ (by decide))]; rfl

/-- StepRunsTheDecodedInstruction, its fault clause, OnlyAnEndlessScanHasNoSuccessor, and RunCountsExecutedInstructions, its
hang clause: a running machine whose word at the
PC is PUTS and whose memory has no zero word. -/
theorem witness_endlessStep :
    let s : State := { State.reset with mem := denseMemory.writeWord 0x0000#16 0xF022#16 }
    Running s ∧ decode false (fetchWord s) = .ok .puts ∧ (∀ a, s.mem.readWord a ≠ 0#16) ∧
      exec .puts (emit (.instructionStart s.pc (Instr.variant .puts)) s) = .fault .scanNeverStops ∧
      nextInstruction false s = .fault .scanNeverStops := by
  intro s
  have hmem : s.mem = denseMemory.writeWord 0x0000#16 0xF022#16 := rfl
  have hword : ∀ a, s.mem.readWord a ≠ 0#16 := by
    intro a
    rw [hmem, Memory.readWord_writeWord, denseMemory_readWord]
    split <;> decide
  have hfetch : fetchWord s = 0xF022#16 := by
    unfold fetchWord memRead
    rw [hmem, Memory.readWord_writeWord, if_pos (by rfl)]
  have hdecode : decode false (fetchWord s) = .ok .puts := by rw [hfetch]; decide
  have hexec : exec .puts (emit (.instructionStart s.pc (Instr.variant .puts)) s) = .fault .scanNeverStops := by
    rw [exec_puts, putsScan_eq_none fun k _ => by simpa using hword _]; rfl
  exact ⟨⟨rfl, rfl⟩, hdecode, hword, hexec, nextInstruction_of_exec_fault ⟨rfl, rfl⟩ hdecode hexec⟩

/-- UnmappedTrapIsANoOp: the vectors next to the mapped range. -/
theorem witness_unmapped : (0x1F#8).toNat < 0x20 ∧ 0x25 < (0x26#8).toNat := by decide

/-- RegisterWritesFollowTheTable (its second clause): no character arrives. -/
theorem witness_input : nextAnswer (withInput none State.reset) = none ∧ Instr.getc.wellFormed = true ∧
    seen (fun t => t.reg 0) (exec .getc (withInput none State.reset)) = some 0#16 := by decide

/-- OnlyFlagSettersWriteFlags, RegisterWritesFollowTheTable, OnlyStoresWriteMemory, OnlyTrapServicesTouchTheConsole: canonical
instructions of each kind, with a next state. -/
theorem witness_everyInstruction : let s := machine flagP [] []
    ((Instr.not 1 2).wellFormed = true ∧ flagSetting (.not 1 2) = true ∧ storing (.not 1 2) = false ∧
      (seen id (exec (.not 1 2) s)).isSome = true) ∧
    ((Instr.str 1 2 0).wellFormed = true ∧ flagSetting (.str 1 2 0) = false ∧ storing (.str 1 2 0) = true ∧
      usesConsole (.str 1 2 0) = false ∧ (seen id (exec (.str 1 2 0) s)).isSome = true) ∧
    (Instr.out ≠ .halt ∧ Instr.out ≠ .getc ∧ Instr.out ≠ .inn ∧ (seen id (exec .out s)).isSome = true) := by decide

/-- RegistersReadFollowTheTable: R5 is neither read nor written by JSRR R3. -/
theorem witness_registersRead : (5 : RegNum) ∉ readRegs (.jsrr 3) ∧ (5 : RegNum) ∉ writtenRegs (.jsrr 3) ∧
    (Instr.jsrr 3).wellFormed = true := by decide

/-- CanonicalMemoriesThatReadAlikeAreEqual: two memories in canonical form, built in two orders. -/
theorem witness_canonical :
    ((⟨[]⟩ : Memory).writeByte 3 1 |>.writeByte 2 5).wf = true ∧ ((⟨[]⟩ : Memory).writeByte 2 5 |>.writeByte 3 1).wf = true ∧
    ((⟨[]⟩ : Memory).writeByte 3 1 |>.writeByte 2 5) = ((⟨[]⟩ : Memory).writeByte 2 5 |>.writeByte 3 1) := by decide

/-- NextFetchSeesTheStore: STR and STI that store to the next address (program P4's shape). -/
theorem witness_selfModifying :
    let s := machine flagP [(2, 0xF025#16), (1, 0x3001#16)] [(0x3001#16, 0x3001#16)]
    wordAddress (s.reg 1) 0 = nextPc s.pc ∧ memRead (wordAddress (s.reg 1) 0) s = nextPc s.pc ∧
    seen fetchWord (exec (.str 2 1 0) s) = some 0xF025#16 ∧ seen fetchWord (exec (.sti 2 1 0) s) = some 0xF025#16 := by
  decide

/-- StepRunsTheDecodedInstruction, its first two clauses; ChecksComeInPriorityOrder, its last two; FatalStepsArePrecise, both
cases: a running machine on NOT, on RTI, and on a word the strict setting rejects. -/
theorem witness_steps :
    let s := debugWrite 0x3000#16 0x973F#16 (machine flagP [] [])
    let r := debugWrite 0x3000#16 0x8000#16 (machine flagP [] [])
    let d := debugWrite 0x3000#16 0x1218#16 (machine flagP [] [])
    (decode false (s.mem.readWord s.pc) = .ok (.not 3 4) ∧
      seen (fun t => t.faultMark) (exec (.not 3 4) (emit (.instructionStart s.pc (.not 3 4)) s)) = some none) ∧
    (decode false (fetchWord r) = .ok .rti ∧ seen (fun t => t.faultMark) (nextInstruction false r) =
      some (some (.unimplementedInstruction 0x3000#16 0x8000#16))) ∧
    (decode true (fetchWord d) = .error .nonzeroUnusedBits ∧ seen (fun t => t.faultMark) (nextInstruction true d) =
      some (some (.decodeError 0x3000#16 0x1218#16 .nonzeroUnusedBits))) ∧
    s.faultMark = none ∧ s.halted = false ∧ r.faultMark = none ∧ r.halted = false ∧ d.faultMark = none ∧
    d.halted = false := by decide

/-- StepRunsThePlacedWord: a table word that decodes, at the top of its range. -/
theorem witness_placed : 0xFFFF < 65536 ∧ decodeTableWord 16 0xFFFF = some (.trap 0xFF) := by decide

/-- FaultsAreSticky, ChecksComeInPriorityOrder (first clause): a faulted machine that meets the invariant. -/
theorem witness_faulted : let s := raiseFatal (.unimplementedInstruction 0x3005 0x8000) (machine flagP [] [])
    s.faultMark = some (.unimplementedInstruction 0x3005 0x8000) ∧ Inv s := by
  intro s; exact ⟨by decide, by decide, by decide, by decide⟩

/-- HaltedStepsAreNoOps, ChecksComeInPriorityOrder (second clause), LatchIsSetOnlyByHaltAndNeverCleared (first clause): a
halted machine; and a step that sets the latch (second clause). -/
theorem witness_halted : let s := ioHalt (machine flagP [] [])
    s.halted = true ∧ s.faultMark = none ∧ seen (fun t => t.halted) (nextInstruction false s) = some true ∧
    (machine flagP [] []).halted = false ∧
    seen (fun t => t.halted) (stepOn 0xF025#16 (machine flagP [] [])) = some true := by decide

/-- StepsAreBracketedOnTheTrace: a step that returns Ok(Executed). -/
theorem witness_executed :
    stepReturn false (debugWrite 0x3000#16 0x973F#16 (machine flagP [] [])) = .executed := by decide

/-- StrictSettingOnlyMattersForUnusedBits: a fetched word with zero unused bits. -/
theorem witness_noUnusedBits : unusedBits (fetchWord (debugWrite 0x3000#16 0xC1C0#16 (machine flagP [] []))) = 0#16 := by
  decide

/-- StepKeepsInv: a machine that meets the invariant and steps; ResetHoldsTheSpecValues: each value of reset_cc. -/
theorem witness_inv : Inv (machine flagN [(2, 0x7FFF#16)] [(0x0010#16, 0x4142#16)]) ∧
    (seen id (nextInstruction false (machine flagN [(2, 0x7FFF#16)] [(0x0010#16, 0x4142#16)]))).isSome = true ∧
    ([ResetCc.n, .z, .p, .none].map fun c => (State.new ⟨Vector.replicate 8 0#16, c, 0x3000#16⟩).cc) =
      [flagN, flagZ, flagP, flagNone] :=
  ⟨⟨by decide, by decide, by decide⟩, by decide, by decide⟩

/-- ReachableStatesMeetInv: a state reached from a construction with parameters of its own. -/
theorem witness_reachable : Reachable false (loadProgram [0xF025#16] 0x3000#16 (State.new
    ⟨Vector.replicate 8 0xABCD#16, .p, 0x1234#16⟩)) := .load _ _ (.new _)

/-- LoadProgramWritesInOrder: the last word of a load that wraps, and an address outside it. -/
theorem witness_load : (∀ j, 1 < j → j < [0x1111#16, 0x2222#16].length →
      0xFFFF#16 + BitVec.ofNat 16 j ≠ 0xFFFF#16 + BitVec.ofNat 16 1) ∧
    (∀ i < [0x1111#16, 0x2222#16].length, 0xFFFF#16 + BitVec.ofNat 16 i ≠ 0x3000#16) :=
  ⟨fun j h1 h2 => absurd h2 (by simp; omega), by decide⟩

/-- RunCountsExecutedInstructions: a run that ends halted before its budget, and one that uses it up (its first step marks no
error); a first step that marks one; a machine already marked; and a halted one (the hang clause: witness_endlessStep). -/
theorem witness_run : let s := loadProgram [0x5020#16, 0xF025#16] 0x3000#16 State.reset
    (match run false 5 s with | .ok c t => (c, t.halted) | _ => (0, false)) = (2, true) ∧
    (match run false 1 s with | .ok c t => (c, t.halted) | _ => (0, true)) = (1, false) ∧ s.faultMark = none ∧
    s.halted = false ∧ seen (fun t => t.faultMark) (nextInstruction false s) = some none := by decide

theorem witness_runError : let r := loadProgram [0x8000#16] 0x3000#16 State.reset
    let e := FatalError.unimplementedInstruction 0x3000#16 0x8000#16
    r.halted = false ∧ seen (fun t => t.faultMark) (nextInstruction false r) = some (some e) ∧
    (raiseFatal e r).faultMark = some e ∧ (raiseFatal e r).halted = false ∧ (ioHalt r).halted = true := by decide

end Sys2Proof.Machine.Tests
end

/-! ## The state rules of spec/10_state.md: the invariant, who writes the flags, the registers and the latch

Each fact about every instruction is read off `exec_shape`, and each fact about every step off `nextInstruction_cases`. -/

namespace Sys2Proof.Machine

/-! ### What every instruction does to one part of the state -/

theorem ExecShape.of_next {i : Instr} (hw : i.wellFormed = true) {s t : State} (h : exec i s = .next t) :
    ExecShape i s (.next t) :=
  h ▸ exec_shape hw s

/-- R26 and R27: the flags are kept, or set from a result, as the instruction's kind says. -/
theorem exec_flags {i : Instr} (hw : i.wellFormed = true) {s t : State} (h : exec i s = .next t) :
    (flagSetting i = false ∧ t.cc = s.cc) ∨ (flagSetting i = true ∧ t.cc.count = 1) := by
  cases ExecShape.of_next hw h with
  | result dr r hf => exact .inr ⟨hf, by simpa using count_flagsOf r⟩
  | store a v hf | jump a hf | call a hf => exact .inl ⟨hf, by simp⟩
  | getc hi | inn hi | halt hi | rti hi => exact .inl ⟨hi ▸ rfl, by simp⟩
  | write bs hi => exact .inl ⟨by obtain rfl | rfl | rfl := hi <;> rfl, by simp⟩

/-- Only a store changes memory, and a word write keeps the canonical form. -/
theorem exec_mem_wf {i : Instr} (hw : i.wellFormed = true) {s t : State} (h : exec i s = .next t)
    (hm : s.mem.wf = true) : t.mem.wf = true := by
  cases ExecShape.of_next hw h with
  | store a v => simpa using Memory.writeWord_wf a v hm
  | _ => simpa using hm

/-- R28: HALT alone changes the halted latch. -/
theorem exec_halted {i : Instr} (hw : i.wellFormed = true) (hi : i ≠ .halt) {s t : State} (h : exec i s = .next t) :
    t.halted = s.halted := by
  cases ExecShape.of_next hw h with
  | halt hhalt => exact absurd hhalt hi
  | _ => simp

/-! ### The invariant -/

/-- The invariant looks at memory, flags, fault mark and latch only. -/
theorem Inv.of_eq {s t : State} (h : Inv s) (hmem : t.mem = s.mem) (hcc : t.cc = s.cc)
    (hmark : t.faultMark = s.faultMark) (hhalted : t.halted = s.halted) : Inv t where
  memory := hmem ▸ h.memory
  flags := hcc ▸ h.flags
  oneEnd := by rw [hmark, hhalted]; exact h.oneEnd

theorem emit_running (ev : TraceEvent) {s : State} (h : Running s) : Running (emit ev s) := h

theorem emit_inv (ev : TraceEvent) {s : State} (h : Inv s) : Inv (emit ev s) :=
  h.of_eq (by simp) (by simp) (by simp) (by simp)

theorem endInstruction_inv (p : Word) (v : Variant) {t : State} (h : Inv t) : Inv (endInstruction p v t) :=
  h.of_eq (by simp) (by simp) (by simp) (by simp)

/-- A machine whose latch is clear may be marked. -/
theorem raiseFatal_inv (e : FatalError) {s : State} (hs : s.halted = false) (h : Inv s) : Inv (raiseFatal e s) where
  memory := by simpa using h.memory
  flags := by simpa using h.flags
  oneEnd := .inr (by simpa using hs)

/-- An instruction run on a running machine sets one of the two ends at most: RTI the mark, HALT the latch. -/
theorem exec_inv {i : Instr} (hw : i.wellFormed = true) {s t : State} (hr : Running s) (hs : Inv s)
    (h : exec i s = .next t) : Inv t where
  memory := exec_mem_wf hw h hs.memory
  flags := by
    obtain ⟨-, hcc⟩ | ⟨-, hcount⟩ := exec_flags hw h
    · rw [hcc]; exact hs.flags
    · exact hcount.le
  oneEnd := by
    by_cases hi : i = .rti
    · exact .inr ((exec_halted hw (by simp [hi]) h).trans hr.2)
    · exact .inl ((exec_faultMark hw hi h).trans hr.1)

theorem nextInstruction_inv {strict : Bool} {s t : State} (hs : Inv s) (h : nextInstruction strict s = .next t) :
    Inv t := by
  obtain ⟨-, -, rfl⟩ | ⟨hr, reason, -, rfl⟩ | ⟨hr, i, u, hd, hu, rfl⟩ := nextInstruction_cases h
  · exact hs
  · exact raiseFatal_inv _ hr.2 hs
  · exact endInstruction_inv _ _ (exec_inv (wellFormed_of_decode hd) (emit_running _ hr) (emit_inv _ hs) hu)

/-- Settles O51: a step is a halted no-op, a DecodeError of a running machine, or an executed instruction, and each keeps
the invariant. -/
theorem stepKeepsInv : Obligations.StepKeepsInv :=
  ⟨fun _ _ hs h => nextInstruction_inv hs h, fun _ _ _ hs h => nextInstruction_inv hs h⟩

/-- Settles O32. -/
theorem onlyFlagSettersWriteFlags : Obligations.OnlyFlagSettersWriteFlags := by
  intro i s t hw h
  obtain ⟨hf, hcc⟩ | ⟨hf, hcount⟩ := exec_flags hw h
  · exact ⟨fun _ => hcc, fun hset => by simp [hf] at hset⟩
  · exact ⟨fun hnot => by simp [hf] at hnot, fun _ => hcount⟩

/-! ### The register written (R22) -/

theorem callTo_sameRegsBut (a : Word) (s : State) : SameRegsBut [7#3] s (callTo a s) := by
  intro j hj
  have hne : ¬ 7#3 = j := fun h => hj (by simp [h])
  simp [hne]

theorem receiveChar_sameRegsBut (answer : Option Byte) (s : State) : SameRegsBut [0#3] s (receiveChar answer s) := by
  intro j hj
  have hne : ¬ 0#3 = j := fun h => hj (by simp [h])
  cases answer with
  | none => simp
  | some b => simp [hne]

theorem exec_sameRegsBut {i : Instr} (hw : i.wellFormed = true) {s t : State} (h : exec i s = .next t) :
    SameRegsBut (writtenRegs i) s t := by
  cases ExecShape.of_next hw h with
  | result dr r hf hwr => rw [hwr]; exact (writeResult_spec dr r s).others
  | call a hf hwr => rw [hwr]; exact callTo_sameRegsBut a s
  | getc hi =>
    rw [hi]; intro j hj
    rw [advancePc_reg, receiveChar_sameRegsBut _ _ j hj, ioReadChar_reg]
  | inn hi =>
    rw [hi]; intro j hj
    rw [advancePc_reg, receiveChar_sameRegsBut _ _ j hj, ioReadCharEcho_reg]
  | _ => intro j _; simp

theorem exec_getc (s : State) : exec .getc s = .next (advancePc (receiveChar (nextAnswer s) (ioReadChar s))) := rfl
theorem exec_inn (s : State) : exec .inn s = .next (advancePc (receiveChar (nextAnswer s) (ioReadCharEcho s))) := rfl

/-- Settles O33: GETC and IN write R0 only when the answer is a character. -/
theorem registerWritesFollowTheTable : Obligations.RegisterWritesFollowTheTable := by
  intro i s t hw h
  refine ⟨exec_sameRegsBut hw h, ?_⟩
  rintro (rfl | rfl) hnone
  · rw [exec_getc, hnone] at h; cases h
    intro j _; simp
  · rw [exec_inn, hnone] at h; cases h
    intro j _; simp

/-! ### The halted latch -/

/-- Settles O47: with the latch set a step does nothing; with it clear, only an executed instruction can set it, and of
those only HALT does. -/
theorem latchIsSetOnlyByHaltAndNeverCleared : Obligations.LatchIsSetOnlyByHaltAndNeverCleared := by
  intro strict s t h
  obtain ⟨-, -, rfl⟩ | ⟨hr, reason, -, rfl⟩ | ⟨hr, i, u, hd, hu, rfl⟩ := nextInstruction_cases h
  · exact ⟨id, fun hclear hset => by simp [hclear] at hset⟩
  · exact ⟨fun hset => by simpa using hset, fun hclear hset => by simp [hclear] at hset⟩
  · refine ⟨fun hset => by simp [hr.2] at hset, fun hclear hset => ?_⟩
    by_cases hi : i = .halt
    · rw [hd, hi]
    · have hkept := exec_halted (wellFormed_of_decode hd) hi hu
      simp [hkept, hclear] at hset

/-! ### Construction and the reachable states -/

theorem readWord_empty (a : Word) : (Memory.mk []).readWord a = 0x0000#16 :=
  (readWord_eq_zero_iff _ a).2 ⟨Memory.readByte_empty _, Memory.readByte_empty _⟩

/-- R33: a value of reset_cc sets one flag, or none. -/
theorem count_resetFlags_le (cc : ResetCc) : (resetFlags cc).count ≤ 1 := by
  cases cc <;> decide

theorem new_inv (p : ResetParams) : Inv (State.new p) :=
  ⟨rfl, count_resetFlags_le p.cc, .inl rfl⟩

/-- Settles O52. -/
theorem resetHoldsTheSpecValues : Obligations.ResetHoldsTheSpecValues := by
  refine ⟨?_, rfl⟩
  rintro p s rfl
  have hcc : (State.new p).cc = resetFlags p.cc := rfl
  exact ⟨rfl, rfl, readWord_empty, rfl, rfl, fun h => by rw [hcc, h]; rfl, fun h => by rw [hcc, h]; rfl,
    fun h => by rw [hcc, h]; rfl, fun h => by rw [hcc, h]; rfl, new_inv p⟩

theorem loadProgram_inv (words : List Word) (origin : Word) {s : State} (h : Inv s) : Inv (loadProgram words origin s) where
  memory := loadWords_wf words origin h.memory
  flags := h.flags
  oneEnd := h.oneEnd

theorem debugWrite_inv (a v : Word) {s : State} (h : Inv s) : Inv (debugWrite a v s) where
  memory := Memory.writeWord_wf a v h.memory
  flags := h.flags
  oneEnd := h.oneEnd

theorem queueInput_inv (answer : Option Byte) {s : State} (h : Inv s) : Inv (queueInput answer s) :=
  h.of_eq (by simp) (by simp) (by simp) (by simp)

/-- Settles O53, by induction on how the state was reached. -/
theorem reachableStatesMeetInv : Obligations.ReachableStatesMeetInv := by
  intro strict s h
  induction h with
  | new p => exact new_inv p
  | step _ hnext ih => exact nextInstruction_inv ih hnext
  | load words origin _ ih => exact loadProgram_inv words origin ih
  | poke a v _ ih => exact debugWrite_inv a v ih
  | queue answer _ ih => exact queueInput_inv answer ih

end Sys2Proof.Machine

/-! ## A register outside both columns of R22 has no influence

Each operation of an instruction commutes with changing a register that it does not write; the operands an instruction
reads are the same in both states. -/

namespace Sys2Proof.Machine

section
variable {r : RegNum} (v : Word) (s : State)

/-! ### Operations that write no register -/

theorem advancePc_withReg : advancePc (withReg r v s) = withReg r v (advancePc s) := rfl
theorem setPc_withReg (a : Word) : setPc a (withReg r v s) = withReg r v (setPc a s) := rfl
theorem memWrite_withReg (a x : Word) : memWrite a x (withReg r v s) = withReg r v (memWrite a x s) := rfl

theorem setcc_withReg (x : Word) : setcc x (withReg r v s) = withReg r v (setcc x s) := by
  ext1 <;> simp

theorem nextAnswer_withReg : nextAnswer (withReg r v s) = nextAnswer s := rfl

theorem ioReadChar_withReg : ioReadChar (withReg r v s) = withReg r v (ioReadChar s) := by
  ext1 <;> simp [nextAnswer_withReg]

theorem ioReadCharEcho_withReg : ioReadCharEcho (withReg r v s) = withReg r v (ioReadCharEcho s) := by
  ext1 <;> simp [nextAnswer_withReg]

theorem finishScan_withReg (chars : Option (List Byte)) :
    finishScan chars (withReg r v s) = mapNext (withReg r v) (finishScan chars s) := by
  cases chars <;> rfl

/-! ### Operations that write another register -/

variable {s v}

theorem writeReg_withReg {i : RegNum} (h : r ≠ i) (x : Word) :
    writeReg i x (withReg r v s) = withReg r v (writeReg i x s) := by
  have hnat : r.toNat ≠ i.toNat := fun heq => h (BitVec.eq_of_toNat_eq heq)
  ext1 <;> simp [h, Vector.set_comm _ _ hnat]

theorem receiveChar_withReg (h : r ∉ [0#3]) (answer : Option Byte) :
    receiveChar answer (withReg r v s) = withReg r v (receiveChar answer s) := by
  cases answer with
  | none => rfl
  | some b => exact writeReg_withReg (List.ne_of_not_mem_cons h) _

/-- A result written to another register, of operands that do not see the changed one. -/
theorem next_writeResult_withReg {dr : RegNum} (h : r ∉ [dr]) {x y : Word} (hxy : x = y) :
    Host.Outcome.next (writeResult dr x (withReg r v s)) = mapNext (withReg r v) (.next (writeResult dr y s)) := by
  unfold writeResult
  rw [hxy, writeReg_withReg (List.ne_of_not_mem_cons h), setcc_withReg, advancePc_withReg]
  rfl

/-- A store whose address and value do not see the changed register. -/
theorem next_memWrite_withReg {a b x y : Word} (hab : a = b) (hxy : x = y) :
    Host.Outcome.next (advancePc (memWrite a x (withReg r v s))) =
      mapNext (withReg r v) (.next (advancePc (memWrite b y s))) := by
  rw [hab, hxy, memWrite_withReg, advancePc_withReg]
  rfl

theorem next_setPc_withReg {a b : Word} (hab : a = b) :
    Host.Outcome.next (setPc a (withReg r v s)) = mapNext (withReg r v) (.next (setPc b s)) := by
  rw [hab, setPc_withReg]
  rfl

theorem next_callTo_withReg (h : r ∉ [7#3]) {a b : Word} (hab : a = b) :
    Host.Outcome.next (callTo a (withReg r v s)) = mapNext (withReg r v) (.next (callTo b s)) := by
  unfold callTo
  rw [hab, writeReg_withReg (List.ne_of_not_mem_cons h), setPc_withReg]
  rfl

end

theorem exec_br (n z p : Bool) (offset9 : BitVec 9) (s : State) : exec (.br n z p offset9) s =
    .next (if branchTaken n z p s.cc then setPc (branchTarget s.pc offset9) s else advancePc s) := rfl

theorem exec_out (s : State) : exec .out s = .next (advancePc (ioWriteChars [lowByte (s.reg 0#3)] s)) := rfl

/-- Changing a register that an instruction neither reads nor writes commutes with executing it: one case for each
shared ending (a result, a store, a jump, a call), and one for each TRAP service. -/
theorem exec_withReg {i : Instr} {r : RegNum} (v : Word) (s : State) (hw : i.wellFormed = true) (hread : r ∉ readRegs i)
    (hwritten : r ∉ writtenRegs i) : exec i (withReg r v s) = mapNext (withReg r v) (exec i s) := by
  cases i with
  | add dr sr1 sr2 | and dr sr1 sr2 | xor dr sr1 sr2 =>
    have hne : r ≠ sr1 ∧ r ≠ sr2 := by simpa [readRegs] using hread
    exact next_writeResult_withReg hwritten (by simp [hne])
  | addImm dr sr imm5 | andImm dr sr imm5 | xorImm dr sr imm5 =>
    exact next_writeResult_withReg hwritten (by simp [List.ne_of_not_mem_cons hread])
  | not dr sr | lshf dr sr amount4 | rshfl dr sr amount4 | rshfa dr sr amount4 =>
    exact next_writeResult_withReg hwritten (by simp [List.ne_of_not_mem_cons hread])
  | ldb dr baseR offset6 | ldr dr baseR offset6 | ldi dr baseR offset6 =>
    exact next_writeResult_withReg hwritten (by simp [List.ne_of_not_mem_cons hread])
  | lea dr offset9 => exact next_writeResult_withReg hwritten rfl
  | stb sr baseR offset6 | str sr baseR offset6 | sti sr baseR offset6 =>
    have hne : r ≠ baseR ∧ r ≠ sr := by simpa [readRegs] using hread
    exact next_memWrite_withReg (by simp [hne]) (by simp [hne])
  | br n z p offset9 =>
    rw [exec_br, exec_br, withReg_cc]
    cases branchTaken n z p s.cc <;> rfl
  | jmp baseR | ret => exact next_setPc_withReg (by simp [List.ne_of_not_mem_cons hread])
  | jsr offset11 => exact next_callTo_withReg hwritten rfl
  | jsrr baseR => exact next_callTo_withReg hwritten (by simp [List.ne_of_not_mem_cons hread])
  | trap vector8 =>
    rw [exec_trap, exec_trap, routeTrap_unmapped hw, routeTrap_unmapped hw]
    rfl
  | getc =>
    rw [exec_getc, exec_getc, nextAnswer_withReg, ioReadChar_withReg, receiveChar_withReg hwritten]
    rfl
  | inn =>
    rw [exec_inn, exec_inn, nextAnswer_withReg, ioReadCharEcho_withReg, receiveChar_withReg hwritten]
    rfl
  | out =>
    rw [exec_out, exec_out, withReg_reg, if_neg (List.ne_of_not_mem_cons hread)]
    rfl
  | puts =>
    rw [exec_puts, exec_puts, finishScan_withReg, withReg_reg, if_neg (List.ne_of_not_mem_cons hread)]
    rfl
  | putsp =>
    rw [exec_putsp, exec_putsp, finishScan_withReg, withReg_reg, if_neg (List.ne_of_not_mem_cons hread)]
    rfl
  | halt | rti => rfl

/-- Settles O34. -/
theorem registersReadFollowTheTable : Obligations.RegistersReadFollowTheTable :=
  fun _ _ v s hw hread hwritten => exec_withReg v s hw hread hwritten

end Sys2Proof.Machine

/-! ## The memory rules of spec/20_memory.md: what a write changes, who writes, and the canonical form

The read-after-write laws of words (`Memory.readWord_writeWord`, `Memory.readByte_writeWord`) give every rule about a
write; `exec_shape` says who writes; and a canonical cell list is determined by what it reads (`Memory.mem_cells_iff`). -/

namespace Sys2Proof.Machine

/-! ### What one word write changes (R52, R60) -/

@[simp] theorem memRead_memWrite (a b v : Word) (s : State) :
    memRead b (memWrite a v s) = if b = a then v else memRead b s :=
  Memory.readWord_writeWord s.mem a b v

@[simp] theorem readMemory_debugWrite (a b v : Word) (s : State) :
    readMemory b (debugWrite a v s) = if b = a then v else readMemory b s :=
  Memory.readWord_writeWord s.mem a b v

theorem sameBytesButWord_of_mem {a v : Word} {s t : State} (h : t.mem = s.mem.writeWord a v) :
    SameBytesButWord a s t := by
  intro k hlow hhigh
  rw [h, Memory.readByte_writeWord, if_neg hhigh, if_neg hlow]

/-- A word by its two lanes, as a number (R55). -/
theorem Memory.toNat_readWord (m : Memory) (a : Word) :
    (m.readWord a).toNat = 256 * (m.readByte (highKey a)).toNat + (m.readByte (lowKey a)).toNat := by
  have hlow : (m.readByte (lowKey a)).toNat < 2 ^ 8 := (m.readByte (lowKey a)).isLt
  rw [Memory.readWord, BitVec.toNat_append, ← Nat.shiftLeft_add_eq_or_of_lt hlow, Nat.shiftLeft_eq]
  omega

/-- Settles O37. -/
theorem memoryReadsReturnTheLastWrite : Obligations.MemoryReadsReturnTheLastWrite :=
  fun a v s => ⟨fun b => memRead_memWrite a b v s, sameBytesButWord_of_mem (memWrite_mem a v s), memWrite_trace a v s,
    s.mem.toNat_readWord a⟩

/-- Settles O55. -/
theorem debugWriteSetsOneWord : Obligations.DebugWriteSetsOneWord :=
  fun a v s => ⟨fun b => readMemory_debugWrite a b v s, sameBytesButWord_of_mem (debugWrite_mem a v s), rfl⟩

/-! ### The fetch after a store (R65) -/

theorem fetchWord_advancePc_memWrite {a : Word} {s : State} (h : a = nextPc s.pc) (v : Word) :
    fetchWord (advancePc (memWrite a v s)) = v := by
  simp [fetchWord, h]

theorem exec_str (sr baseR : RegNum) (offset6 : BitVec 6) (s : State) : exec (.str sr baseR offset6) s =
    .next (advancePc (memWrite (wordAddress (s.reg baseR) offset6) (s.reg sr) s)) := rfl

theorem exec_sti (sr baseR : RegNum) (offset6 : BitVec 6) (s : State) : exec (.sti sr baseR offset6) s =
    .next (advancePc (memWrite (memRead (wordAddress (s.reg baseR) offset6) s) (s.reg sr) s)) := rfl

/-- Settles O39: a store advances the PC to the address it has just written. -/
theorem nextFetchSeesTheStore : Obligations.NextFetchSeesTheStore := by
  intro sr baseR offset6 s t
  constructor
  · intro h haddr
    rw [exec_str] at h; cases h
    exact fetchWord_advancePc_memWrite haddr _
  · intro h haddr
    rw [exec_sti] at h; cases h
    exact fetchWord_advancePc_memWrite haddr _

/-! ### Only stores write memory (R54) -/

theorem storing_ofVector (vector8 : BitVec 8) : storing (Instr.ofVector vector8) = false := by
  unfold Instr.ofVector
  split_ifs <;> rfl

/-- Every term means what some canonical term means (R95), and the two are both stores or both none: a term that is not
canonical stands for NOT, RET or a service row, and none of these stores. -/
theorem exists_canonical (i : Instr) :
    ∃ j : Instr, j.wellFormed = true ∧ storing j = storing i ∧ ∀ s, exec j s = exec i s := by
  by_cases hw : i.wellFormed = true
  · exact ⟨i, hw, rfl, fun _ => rfl⟩
  · cases i with
    | xorImm dr sr imm5 =>
      obtain rfl : imm5 = 0b11111#5 := by simpa [Instr.wellFormed] using hw
      exact ⟨.not dr sr, rfl, rfl, fun s => (exec_xorImm_allOnes dr sr s).symm⟩
    | jmp baseR =>
      obtain rfl : baseR = 7#3 := by simpa [Instr.wellFormed] using hw
      exact ⟨.ret, rfl, rfl, fun s => (exec_jmp_seven s).symm⟩
    | trap v => exact ⟨Instr.ofVector v, ofVector_wellFormed v, storing_ofVector v, exec_canonical (.trap v)⟩
    | _ => exact absurd rfl hw

theorem exec_mem_of_not_storing {i : Instr} (hw : i.wellFormed = true) (hs : storing i = false) {s t : State}
    (h : exec i s = .next t) : t.mem = s.mem := by
  cases ExecShape.of_next hw h with
  | store a v hf hstore => simp [hs] at hstore
  | _ => simp

/-- A store only reads registers (R188) and sets no flags (R26). -/
theorem exec_regs_cc_of_storing {i : Instr} (hw : i.wellFormed = true) (hs : storing i = true) {s t : State}
    (h : exec i s = .next t) : t.regs = s.regs ∧ t.cc = s.cc := by
  cases ExecShape.of_next hw h with
  | store a v => simp
  | result dr r hf hwr hstore | call a hf hwr hstore | jump a hf hstore => simp [hs] at hstore
  | getc hi | inn hi | halt hi | rti hi => simp [hi, storing] at hs
  | write bs hi => obtain rfl | rfl | rfl := hi <;> cases hs

/-- Settles O35: by the shapes of the canonical instruction that has the same meaning. -/
theorem onlyStoresWriteMemory : Obligations.OnlyStoresWriteMemory := by
  intro i s t h
  obtain ⟨j, hw, hstoring, hexec⟩ := exists_canonical i
  rw [← hexec] at h
  rw [← hstoring]
  exact ⟨fun hs => exec_mem_of_not_storing hw hs h, fun hs => exec_regs_cc_of_storing hw hs h⟩

/-! ### The canonical form is determined by what it reads -/

/-- In a list with rising keys, a cell other than a zero byte is listed exactly when looking up its key gives its byte. -/
theorem mem_cells_iff_lookupCell {cells : List Host.Cell} (hkeys : cells.Pairwise fun a b => a.1 < b.1)
    {c : Host.Cell} (hc : c.2 ≠ unlistedByte) : c ∈ cells ↔ lookupCell cells c.1 = c.2 := by
  induction cells with
  | nil => simpa [lookupCell] using hc.symm
  | cons d rest ih =>
    obtain ⟨hfirst, hrest⟩ := List.pairwise_cons.1 hkeys
    rw [List.mem_cons, ih hrest]
    by_cases hd : d.1 = c.1
    · have hnot : c ∉ rest := fun hmem => absurd (hfirst c hmem) (by omega)
      rw [ih hrest] at hnot
      simp [lookupCell, hd, hnot, Prod.ext_iff, eq_comm]
    · have hne : c ≠ d := fun h => hd (by rw [h])
      simp [lookupCell, hd, hne]

/-- What is listed in a canonical memory: the nonzero bytes that it reads. -/
theorem Memory.mem_cells_iff {m : Memory} (hm : m.wf = true) (c : Host.Cell) :
    c ∈ m.cells ↔ c.1 < byteKeys ∧ c.2 ≠ unlistedByte ∧ m.readByte c.1 = c.2 := by
  obtain ⟨hkeys, hcells⟩ := m.wf_iff.1 hm
  constructor
  · intro hmem
    obtain ⟨hlt, hne⟩ := hcells c hmem
    exact ⟨hlt, hne, (mem_cells_iff_lookupCell hkeys hne).1 hmem⟩
  · rintro ⟨-, hne, hread⟩
    exact (mem_cells_iff_lookupCell hkeys hne).2 hread

/-- Lists of cells with rising keys are determined by their cells. -/
theorem cells_eq_of_mem_iff {xs ys : List Host.Cell} (hxs : xs.Pairwise fun a b => a.1 < b.1)
    (hys : ys.Pairwise fun a b => a.1 < b.1) (h : ∀ c, c ∈ xs ↔ c ∈ ys) : xs = ys := by
  have hirrefl : Std.Irrefl fun a b : Host.Cell => a.1 < b.1 := ⟨fun a => Nat.lt_irrefl a.1⟩
  have hantisymm : Std.Antisymm fun a b : Host.Cell => a.1 < b.1 := ⟨fun _ _ hab hba => absurd hab hba.asymm⟩
  exact hxs.eq_of_mem_iff hys h

/-- Settles O38: the two memories list the same cells, in the same order. -/
theorem canonicalMemoriesThatReadAlikeAreEqual : Obligations.CanonicalMemoriesThatReadAlikeAreEqual := by
  intro m n hm hn hread
  have hcells : ∀ c, c ∈ m.cells ↔ c ∈ n.cells := fun c => by
    rw [m.mem_cells_iff hm, n.mem_cells_iff hn]
    exact and_congr_right fun hlt => by rw [hread c.1 hlt]
  have heq : m.cells = n.cells := cells_eq_of_mem_iff (m.wf_iff.1 hm).1 (n.wf_iff.1 hn).1 hcells
  cases m; cases n
  exact congrArg Memory.mk heq

end Sys2Proof.Machine

/-! ## The encoding rules of spec/30_encoding.md: round trip, fields, unused bits, the opcode table and operands

A word is its own fields put together again (`wordOpr_fields` and its companions), and words that agree on their used bits
decode alike (`unusedMask_decodeVariant_congr`); the round trip and the rules about unused bits follow. -/

namespace Sys2Proof

section
open Machine

/-! ### Fields of a masked word -/

/-- Words that agree under a mask agree on every field that the mask covers. -/
theorem extractLsb'_congr_of_masked {v w m : Word} (h : v &&& m = w &&& m) (lo n : Nat)
    (hm : m.extractLsb' lo n = BitVec.allOnes n) : v.extractLsb' lo n = w.extractLsb' lo n := by
  have hfield := congrArg (BitVec.extractLsb' lo n) h
  simpa only [BitVec.extractLsb'_and, hm, BitVec.and_allOnes] using hfield

/-- Words that agree under a mask agree on every bit of it. -/
theorem getLsbD_congr_of_masked {v w m : Word} (h : v &&& m = w &&& m) (k : Nat) (hm : m.getLsbD k = true) :
    v.getLsbD k = w.getLsbD k := by
  have hbit := congrArg (BitVec.getLsbD · k) h
  simpa only [BitVec.getLsbD_and, hm, Bool.and_true] using hbit

/-- A word that is zero under a mask is zero in every field that the mask covers. -/
theorem extractLsb'_eq_zero_of_masked {w m : Word} (h : w &&& m = 0#16) (lo n : Nat)
    (hm : m.extractLsb' lo n = BitVec.allOnes n) : w.extractLsb' lo n = 0#n := by
  rw [extractLsb'_congr_of_masked (w := 0#16) (h.trans BitVec.zero_and.symm) lo n hm, BitVec.extractLsb'_zero]

/-! ### Words put together from their own fields (R81, R82) -/

theorem ofBool_getLsbD (w : Word) (k : Nat) : BitVec.ofBool (w.getLsbD k) = w.extractLsb' k 1 := by
  apply BitVec.eq_of_getLsbD_eq
  intro j hj
  obtain rfl : j = 0 := by omega
  simp

theorem extractLsb'_one_eq {w : Word} {k : Nat} {b : Bool} (h : w.getLsbD k = b) :
    w.extractLsb' k 1 = BitVec.ofBool b := by
  rw [← h, ofBool_getLsbD]

theorem wordOpr_fields {w : Word} (hmode : modeBit w = false) (hunused : w &&& 0x0018#16 = 0#16) :
    wordOpr (opField w) (drField w) (baseField w) (sr2Field w) = w := by
  have hzero : w.extractLsb' 3 2 = 0b00#2 := extractLsb'_eq_zero_of_masked hunused 3 2 rfl
  have hbit : w.extractLsb' 5 1 = 0b0#1 := extractLsb'_one_eq hmode
  rw [wordOpr, ← hzero, ← hbit, opField, drField, baseField, sr2Field]
  repeat rw [BitVec.extractLsb'_append_extractLsb'_eq_extractLsb' (by rfl)]
  exact BitVec.extractLsb'_eq_self

theorem wordOpi_fields {w : Word} (hmode : modeBit w = true) :
    wordOpi (opField w) (drField w) (baseField w) (imm5Field w) = w := by
  have hbit : w.extractLsb' 5 1 = 0b1#1 := extractLsb'_one_eq hmode
  rw [wordOpi, ← hbit, opField, drField, baseField, imm5Field]
  repeat rw [BitVec.extractLsb'_append_extractLsb'_eq_extractLsb' (by rfl)]
  exact BitVec.extractLsb'_eq_self

theorem wordBr_fields {w : Word} (hop : opField w = 0b0000#4) :
    wordBr (flagBit w) (w.getLsbD 10) (w.getLsbD 9) (offset9Field w) = w := by
  rw [wordBr, ← hop, flagBit, bit, bit, bit, ofBool_getLsbD, ofBool_getLsbD, ofBool_getLsbD, opField, offset9Field]
  repeat rw [BitVec.extractLsb'_append_extractLsb'_eq_extractLsb' (by rfl)]
  exact BitVec.extractLsb'_eq_self

theorem wordJmp_fields {w : Word} (hop : opField w = 0b1100#4) (hunused : w &&& 0x0E3F#16 = 0#16) :
    wordJmp (baseField w) = w := by
  have hhigh : w.extractLsb' 9 3 = 0b000#3 := extractLsb'_eq_zero_of_masked hunused 9 3 rfl
  have hlow : w.extractLsb' 0 6 = 0b000000#6 := extractLsb'_eq_zero_of_masked hunused 0 6 rfl
  rw [wordJmp, ← hop, ← hhigh, ← hlow, opField, baseField]
  repeat rw [BitVec.extractLsb'_append_extractLsb'_eq_extractLsb' (by rfl)]
  exact BitVec.extractLsb'_eq_self

theorem wordJsr_fields {w : Word} (hop : opField w = 0b0100#4) (hflag : flagBit w = true) :
    wordJsr (offset11Field w) = w := by
  have hbit : w.extractLsb' 11 1 = 0b1#1 := extractLsb'_one_eq hflag
  rw [wordJsr, ← hop, ← hbit, opField, offset11Field]
  repeat rw [BitVec.extractLsb'_append_extractLsb'_eq_extractLsb' (by rfl)]
  exact BitVec.extractLsb'_eq_self

theorem wordJsrr_fields {w : Word} (hop : opField w = 0b0100#4) (hflag : flagBit w = false)
    (hunused : w &&& 0x063F#16 = 0#16) : wordJsrr (baseField w) = w := by
  have hbit : w.extractLsb' 11 1 = 0b0#1 := extractLsb'_one_eq hflag
  have hhigh : w.extractLsb' 9 2 = 0b00#2 := extractLsb'_eq_zero_of_masked hunused 9 2 rfl
  have hlow : w.extractLsb' 0 6 = 0b000000#6 := extractLsb'_eq_zero_of_masked hunused 0 6 rfl
  rw [wordJsrr, ← hop, ← hbit, ← hhigh, ← hlow, opField, baseField]
  repeat rw [BitVec.extractLsb'_append_extractLsb'_eq_extractLsb' (by rfl)]
  exact BitVec.extractLsb'_eq_self

theorem wordLdSt_fields (w : Word) : wordLdSt (opField w) (drField w) (baseField w) (offset6Field w) = w := by
  rw [wordLdSt, opField, drField, baseField, offset6Field]
  repeat rw [BitVec.extractLsb'_append_extractLsb'_eq_extractLsb' (by rfl)]
  exact BitVec.extractLsb'_eq_self

theorem wordLea_fields {w : Word} (hop : opField w = 0b1110#4) : wordLea (drField w) (offset9Field w) = w := by
  rw [wordLea, ← hop, opField, drField, offset9Field]
  repeat rw [BitVec.extractLsb'_append_extractLsb'_eq_extractLsb' (by rfl)]
  exact BitVec.extractLsb'_eq_self

theorem wordRti_fields {w : Word} (hop : opField w = 0b1000#4) (hunused : w &&& 0x0FFF#16 = 0#16) : wordRti = w := by
  have hzero : w.extractLsb' 0 12 = 0b000000000000#12 := extractLsb'_eq_zero_of_masked hunused 0 12 rfl
  rw [wordRti, ← hop, ← hzero, opField, BitVec.extractLsb'_append_extractLsb'_eq_extractLsb' (by rfl)]
  exact BitVec.extractLsb'_eq_self

theorem wordShf_fields {w : Word} (hop : opField w = 0b1101#4) :
    wordShf (drField w) (baseField w) (modeBit w) (arithBit w) (amount4Field w) = w := by
  rw [wordShf, ← hop, modeBit, arithBit, bit, bit, ofBool_getLsbD, ofBool_getLsbD, opField, drField, baseField,
    amount4Field]
  repeat rw [BitVec.extractLsb'_append_extractLsb'_eq_extractLsb' (by rfl)]
  exact BitVec.extractLsb'_eq_self

theorem wordTrap_fields {w : Word} (hop : opField w = 0b1111#4) (hunused : w &&& 0x0F00#16 = 0#16) :
    wordTrap (vector8Field w) = w := by
  have hzero : w.extractLsb' 8 4 = 0b0000#4 := extractLsb'_eq_zero_of_masked hunused 8 4 rfl
  rw [wordTrap, ← hop, ← hzero, opField, vector8Field]
  repeat rw [BitVec.extractLsb'_append_extractLsb'_eq_extractLsb' (by rfl)]
  exact BitVec.extractLsb'_eq_self

/-! ### decode after encode (R100) -/

/-- R98: the encoder writes every unused bit 0. -/
@[simp] theorem unusedBits_encode (i : Instr) : unusedBits (encode i) = 0#16 := by
  cases i <;> simp [unusedBits, encode, unusedMask]

theorem decodeVariant_encode {i : Instr} (hw : i.wellFormed = true) : decodeVariant (encode i) = i.variant := by
  cases i with
  | xorImm dr sr1 imm5 | jmp baseR => simp_all [encode, decodeVariant, srcField, Instr.variant, Instr.wellFormed]
  | _ => simp [encode, decodeVariant, srcField, Instr.variant]

theorem ofVector_of_unmapped {v : BitVec 8} (h : (Instr.trap v).wellFormed = true) : Instr.ofVector v = .trap v := by
  simp_all [Instr.wellFormed, mappedVectors, Instr.ofVector]

theorem ofVariant_variant {i : Instr} (hw : i.wellFormed = true) : Instr.ofVariant i.variant = i := by
  cases i with
  | trap v => exact ofVector_of_unmapped hw
  | _ => rfl

theorem decode_encode (strict : Bool) {i : Instr} (hw : i.wellFormed = true) : decode strict (encode i) = .ok i :=
  decode_eq_ok_iff.2 ⟨fun _ => unusedBits_encode i, by rw [decodeVariant_encode hw, ofVariant_variant hw]⟩

/-! ### encode after decode (R100), family by family, on a word with zero unused bits -/

/-- The selectors of R91's opcode map, by family. -/
theorem opcode_cases : ∀ op : BitVec 4,
    (op = 0b0001#4 ∨ op = 0b0101#4 ∨ op = 0b1001#4) ∨ op = 0b0000#4 ∨ op = 0b1100#4 ∨ op = 0b0100#4 ∨
    (op = 0b0010#4 ∨ op = 0b0110#4 ∨ op = 0b1010#4 ∨ op = 0b0011#4 ∨ op = 0b0111#4 ∨ op = 0b1011#4) ∨
    op = 0b1110#4 ∨ op = 0b1101#4 ∨ op = 0b1000#4 ∨ op = 0b1111#4 := by
  decide

theorem encode_ofVector (v : BitVec 8) : encode (Instr.ofVector v) = wordTrap v := by
  unfold Instr.ofVector
  split_ifs <;> simp_all [encode]

section
variable {w : Word}

theorem encode_decodeVariant_alu (hop : opField w = 0b0001#4 ∨ opField w = 0b0101#4 ∨ opField w = 0b1001#4)
    (h : unusedBits w = 0#16) : encode (Instr.ofVariant (decodeVariant w)) = w := by
  cases hmode : modeBit w with
  | false =>
    have hunused : w &&& 0x0018#16 = 0#16 := by
      obtain hop | hop | hop := hop <;> simpa [unusedBits, unusedMask, hop, hmode] using h
    have hword := wordOpr_fields hmode hunused
    obtain hop | hop | hop := hop <;>
      simpa [decodeVariant, srcField, Instr.ofVariant, encode, hop, hmode] using hword
  | true =>
    have hword := wordOpi_fields hmode
    by_cases himm : imm5Field w = 0b11111#5 <;> obtain hop | hop | hop := hop <;>
      simpa [decodeVariant, srcField, Instr.ofVariant, encode, hop, hmode, himm] using hword

theorem encode_decodeVariant_jmp (hop : opField w = 0b1100#4) (h : unusedBits w = 0#16) :
    encode (Instr.ofVariant (decodeVariant w)) = w := by
  have hword := wordJmp_fields hop (by simpa [unusedBits, unusedMask, hop] using h)
  by_cases hbase : baseField w = 7#3 <;> simpa [decodeVariant, Instr.ofVariant, encode, hop, hbase] using hword

theorem encode_decodeVariant_jsr (hop : opField w = 0b0100#4) (h : unusedBits w = 0#16) :
    encode (Instr.ofVariant (decodeVariant w)) = w := by
  cases hflag : flagBit w with
  | false =>
    have hword := wordJsrr_fields hop hflag (by simpa [unusedBits, unusedMask, hop, hflag] using h)
    simpa [decodeVariant, Instr.ofVariant, encode, hop, hflag] using hword
  | true => simpa [decodeVariant, Instr.ofVariant, encode, hop, hflag] using wordJsr_fields hop hflag

theorem encode_decodeVariant_ldSt (hop : opField w = 0b0010#4 ∨ opField w = 0b0110#4 ∨ opField w = 0b1010#4 ∨
    opField w = 0b0011#4 ∨ opField w = 0b0111#4 ∨ opField w = 0b1011#4) :
    encode (Instr.ofVariant (decodeVariant w)) = w := by
  have hword := wordLdSt_fields w
  obtain hop | hop | hop | hop | hop | hop := hop <;>
    simpa [decodeVariant, Instr.ofVariant, encode, hop] using hword

theorem encode_decodeVariant_shf (hop : opField w = 0b1101#4) (h : unusedBits w = 0#16) :
    encode (Instr.ofVariant (decodeVariant w)) = w := by
  have hword := wordShf_fields hop
  cases hmode : modeBit w with
  | false =>
    have hunused : w &&& 0x0010#16 = 0#16 := by simpa [unusedBits, unusedMask, hop, hmode] using h
    have harith : arithBit w = false :=
      (getLsbD_congr_of_masked (w := 0#16) (hunused.trans BitVec.zero_and.symm) 4 rfl).trans BitVec.getLsbD_zero
    simpa [decodeVariant, Instr.ofVariant, encode, hop, hmode, harith] using hword
  | true =>
    cases harith : arithBit w <;> simpa [decodeVariant, Instr.ofVariant, encode, hop, hmode, harith] using hword

/-- A word with zero unused bits is the encoding of what it decodes to. -/
theorem encode_decodeVariant (h : unusedBits w = 0#16) : encode (Instr.ofVariant (decodeVariant w)) = w := by
  obtain halu | hbr | hjmp | hjsr | hldSt | hlea | hshf | hrti | htrap := opcode_cases (opField w)
  · exact encode_decodeVariant_alu halu h
  · simpa [decodeVariant, Instr.ofVariant, encode, hbr] using wordBr_fields hbr
  · exact encode_decodeVariant_jmp hjmp h
  · exact encode_decodeVariant_jsr hjsr h
  · exact encode_decodeVariant_ldSt hldSt
  · simpa [decodeVariant, Instr.ofVariant, encode, hlea] using wordLea_fields hlea
  · exact encode_decodeVariant_shf hshf h
  · have hword := wordRti_fields hrti (by simpa [unusedBits, unusedMask, hrti] using h)
    simpa [decodeVariant, Instr.ofVariant, encode, hrti] using hword
  · have hword := wordTrap_fields htrap (by simpa [unusedBits, unusedMask, htrap] using h)
    simpa [decodeVariant, Instr.ofVariant, encode_ofVector, htrap] using hword

end

/-! ### Words that agree on their used bits (R96) -/

/-- The formats with unused bits, and what selects each (R96); any other format has none. -/
theorem unusedMask_cases (w : Word) :
    unusedMask w = 0#16 ∨
    ((opField w = 0b0001#4 ∨ opField w = 0b0101#4 ∨ opField w = 0b1001#4) ∧ modeBit w = false ∧
      unusedMask w = 0x0018#16) ∨
    (opField w = 0b1100#4 ∧ unusedMask w = 0x0E3F#16) ∨
    (opField w = 0b0100#4 ∧ flagBit w = false ∧ unusedMask w = 0x063F#16) ∨
    (opField w = 0b1000#4 ∧ unusedMask w = 0x0FFF#16) ∨
    (opField w = 0b1101#4 ∧ modeBit w = false ∧ unusedMask w = 0x0010#16) ∨
    (opField w = 0b1111#4 ∧ unusedMask w = 0x0F00#16) := by
  unfold unusedMask
  split <;> simp_all

/-- A word that agrees with `w` outside the unused bits of w's format has w's format and decodes alike: the bits that
select the format and the fields that it reads are all used bits. -/
theorem unusedMask_decodeVariant_congr {v w : Word} (h : v &&& ~~~unusedMask w = w &&& ~~~unusedMask w) :
    unusedMask v = unusedMask w ∧ decodeVariant v = decodeVariant w := by
  obtain hmask | ⟨halu, hmode, hmask⟩ | ⟨hop, hmask⟩ | ⟨hop, hflag, hmask⟩ | ⟨hop, hmask⟩ | ⟨hop, hmode, hmask⟩ |
    ⟨hop, hmask⟩ := unusedMask_cases w <;> rw [hmask] at h
  · obtain rfl : v = w := by simpa only [BitVec.not_zero, BitVec.and_allOnes] using h
    exact ⟨rfl, rfl⟩
  · have hop : opField v = opField w := extractLsb'_congr_of_masked h 12 4 rfl
    have hdr : drField v = drField w := extractLsb'_congr_of_masked h 9 3 rfl
    have hbase : baseField v = baseField w := extractLsb'_congr_of_masked h 6 3 rfl
    have hsr2 : sr2Field v = sr2Field w := extractLsb'_congr_of_masked h 0 3 rfl
    have hmode' : modeBit v = modeBit w := getLsbD_congr_of_masked h 5 rfl
    obtain halu | halu | halu := halu <;>
      simp [unusedMask, decodeVariant, srcField, hop, hdr, hbase, hsr2, hmode', halu, hmode]
  · have hop' : opField v = opField w := extractLsb'_congr_of_masked h 12 4 rfl
    have hbase : baseField v = baseField w := extractLsb'_congr_of_masked h 6 3 rfl
    simp [unusedMask, decodeVariant, hop', hop, hbase]
  · have hop' : opField v = opField w := extractLsb'_congr_of_masked h 12 4 rfl
    have hflag' : flagBit v = flagBit w := getLsbD_congr_of_masked h 11 rfl
    have hbase : baseField v = baseField w := extractLsb'_congr_of_masked h 6 3 rfl
    simp [unusedMask, decodeVariant, hop', hop, hflag', hflag, hbase]
  · have hop' : opField v = opField w := extractLsb'_congr_of_masked h 12 4 rfl
    simp [unusedMask, decodeVariant, hop', hop]
  · have hop' : opField v = opField w := extractLsb'_congr_of_masked h 12 4 rfl
    have hmode' : modeBit v = modeBit w := getLsbD_congr_of_masked h 5 rfl
    have hdr : drField v = drField w := extractLsb'_congr_of_masked h 9 3 rfl
    have hbase : baseField v = baseField w := extractLsb'_congr_of_masked h 6 3 rfl
    have hamount : amount4Field v = amount4Field w := extractLsb'_congr_of_masked h 0 4 rfl
    simp [unusedMask, decodeVariant, hop', hop, hmode', hmode, hdr, hbase, hamount]
  · have hop' : opField v = opField w := extractLsb'_congr_of_masked h 12 4 rfl
    have hvector : vector8Field v = vector8Field w := extractLsb'_congr_of_masked h 0 8 rfl
    simp [unusedMask, decodeVariant, hop', hop, hvector]

/-- The word with its unused bits cleared. -/
theorem cleared_congr (w : Word) : unusedMask (w &&& ~~~unusedMask w) = unusedMask w ∧
    decodeVariant (w &&& ~~~unusedMask w) = decodeVariant w :=
  unusedMask_decodeVariant_congr (by rw [BitVec.and_assoc, BitVec.and_self])

theorem unusedBits_cleared (w : Word) : unusedBits (w &&& ~~~unusedMask w) = 0#16 := by
  simp [unusedBits, (cleared_congr w).1, BitVec.and_assoc]

/-- R100: encoding what a word decodes to clears its unused bits. -/
theorem encode_of_decode {w : Word} {i : Instr} (h : decode false w = .ok i) : encode i = w &&& ~~~unusedMask w := by
  have hclear := encode_decodeVariant (unusedBits_cleared w)
  rwa [(cleared_congr w).2, ← (decode_eq_ok_iff.1 h).2] at hclear

theorem and_not_eq_self_iff (w m : Word) : w &&& ~~~m = w ↔ w &&& m = 0#16 := by
  constructor <;> intro h
  · rw [← h]
    simp [BitVec.and_assoc]
  · calc w &&& ~~~m = (w &&& ~~~m) ||| (w &&& m) := by rw [h, BitVec.or_zero]
      _ = w &&& BitVec.allOnes 16 := by rw [← BitVec.and_or_distrib_left, BitVec.not_or_self]
      _ = w := BitVec.and_allOnes

theorem xor_and_of_and_eq_zero {w u m : Word} (h : u &&& m = 0#16) : (w ^^^ u) &&& m = w &&& m := by
  have hdistrib : (w ^^^ u) &&& m = (w &&& m) ^^^ (u &&& m) := by
    ext k
    simp [Bool.and_xor_distrib_right]
  rw [hdistrib, h, BitVec.xor_zero]

/-- Settles O2: decoding an encoding reads back the fields of its format; and clearing a word's unused bits changes neither
its format nor what it decodes to, and leaves the word that the encoder makes. -/
theorem roundTripLaw : Obligations.RoundTripLaw := by
  refine ⟨fun strict i hw => decode_encode strict hw, fun w i h => ?_⟩
  rw [encode_of_decode h]
  exact ⟨rfl, and_not_eq_self_iff w (unusedMask w)⟩

/-- Settles O4: flipped unused bits lie outside every bit that the decoder reads. -/
theorem unusedBitsAreIgnoredByDefault : Obligations.UnusedBitsAreIgnoredByDefault := by
  intro w u hu
  obtain ⟨hmask, hvariant⟩ := unusedMask_decodeVariant_congr (xor_and_of_and_eq_zero (w := w) hu)
  refine ⟨hmask, ?_, ?_⟩
  · simp [decode, hvariant]
  · simp [decode_eq_ok_iff]

/-! ### What the decoder reads, as numbers (R9, R92) -/

theorem fieldValue_eq_toNat (w : Word) {hi lo n : Nat} (h : hi - lo + 1 = n) :
    fieldValue w hi lo = (w.extractLsb' lo n).toNat := by
  rw [fieldValue, BitVec.extractLsb'_toNat, Nat.shiftRight_eq_div_pow, h]

theorem ofNat_fieldValue (w : Word) {hi lo n : Nat} (h : hi - lo + 1 = n) :
    BitVec.ofNat n (fieldValue w hi lo) = w.extractLsb' lo n := by
  rw [fieldValue_eq_toNat w h, BitVec.ofNat_toNat, BitVec.setWidth_eq]

section
variable {w : Word}

theorem opField_of_fieldValue {k : Nat} (h : fieldValue w 15 12 = k) : opField w = BitVec.ofNat 4 k := by
  rw [← h]
  exact (ofNat_fieldValue w (n := 4) rfl).symm

theorem getLsbD_eq_fieldValue (k : Nat) : w.getLsbD k = (fieldValue w k k == 1) := by
  rw [fieldValue, BitVec.getLsbD, Nat.testBit_eq_decide_div_mod_eq, Nat.sub_self]
  rfl

theorem flagBit_of_fieldValue {k : Nat} (h : fieldValue w 11 11 = k) : flagBit w = (k == 1) :=
  h ▸ getLsbD_eq_fieldValue 11

theorem modeBit_of_fieldValue {k : Nat} (h : fieldValue w 5 5 = k) : modeBit w = (k == 1) :=
  h ▸ getLsbD_eq_fieldValue 5

theorem arithBit_of_fieldValue {k : Nat} (h : fieldValue w 4 4 = k) : arithBit w = (k == 1) :=
  h ▸ getLsbD_eq_fieldValue 4

theorem imm5Field_eq_ones_iff : imm5Field w = 0b11111#5 ↔ fieldValue w 4 0 = 0b11111 := by
  rw [fieldValue_eq_toNat w (n := 5) rfl]
  exact BitVec.toNat_inj.symm

theorem baseField_eq_seven_iff : baseField w = 7#3 ↔ fieldValue w 8 6 = 7 := by
  rw [fieldValue_eq_toNat w (n := 3) rfl]
  exact BitVec.toNat_inj.symm

end

@[simp] theorem decode_default (w : Word) : decode false w = .ok (Instr.ofVariant (decodeVariant w)) :=
  decode_eq_ok_iff.2 ⟨nofun, rfl⟩

theorem variant_ofVector (v : BitVec 8) : (Instr.ofVector v).variant = .trap v := by
  unfold Instr.ofVector
  split_ifs <;> simp_all [Instr.variant]

theorem decode_eq_ite (strict : Bool) (w : Word) : decode strict w =
    if strict = true ∧ unusedBits w ≠ 0#16 then .error .nonzeroUnusedBits else decode false w := by
  simp [decode]

/-- Settles O3: the numbers w[hi:lo] are the decoder's fields, and one clause is one arm of `decodeVariant`. -/
theorem decoderReadsTheFieldsOfEachFamily : Obligations.DecoderReadsTheFieldsOfEachFamily := by
  intro w
  have hdr : BitVec.ofNat 3 (fieldValue w 11 9) = drField w := ofNat_fieldValue w rfl
  have hbase : BitVec.ofNat 3 (fieldValue w 8 6) = baseField w := ofNat_fieldValue w rfl
  have hsr2 : BitVec.ofNat 3 (fieldValue w 2 0) = sr2Field w := ofNat_fieldValue w rfl
  have himm5 : BitVec.ofNat 5 (fieldValue w 4 0) = imm5Field w := ofNat_fieldValue w rfl
  have hoffset6 : BitVec.ofNat 6 (fieldValue w 5 0) = offset6Field w := ofNat_fieldValue w rfl
  have hoffset9 : BitVec.ofNat 9 (fieldValue w 8 0) = offset9Field w := ofNat_fieldValue w rfl
  have hoffset11 : BitVec.ofNat 11 (fieldValue w 10 0) = offset11Field w := ofNat_fieldValue w rfl
  have hamount : BitVec.ofNat 4 (fieldValue w 3 0) = amount4Field w := ofNat_fieldValue w rfl
  have hvector : BitVec.ofNat 8 (fieldValue w 7 0) = vector8Field w := ofNat_fieldValue w rfl
  dsimp only
  rw [hdr, hbase, hsr2, himm5, hoffset6, hoffset9, hoffset11, hamount, hvector]
  refine ⟨fun hop hmode => ?add, fun hop hmode => ?addImm, fun hop hmode => ?and, fun hop hmode => ?andImm,
    fun hop hmode => ?xor, fun hop hmode himm => ?xorImm, fun hop hmode himm => ?not, fun hop => ?br,
    fun hop hbase7 => ?jmp, fun hop hbase7 => ?ret, fun hop hflag => ?jsr, fun hop hflag => ?jsrr,
    fun hop => ?ldb, fun hop => ?ldr, fun hop => ?ldi, fun hop => ?stb, fun hop => ?str, fun hop => ?sti,
    fun hop => ?lea, fun hop hmode => ?lshf, fun hop hmode harith => ?rshfl, fun hop hmode harith => ?rshfa,
    fun hop => ?rti, fun hop => ⟨_, decode_default w, ?trap⟩, fun strict => decode_eq_ite strict w⟩
  all_goals replace hop := opField_of_fieldValue hop
  case add | addImm | and | andImm | xor =>
    simp [decodeVariant, srcField, Instr.ofVariant, hop, modeBit_of_fieldValue hmode]
  case xorImm | not =>
    simp [decodeVariant, srcField, Instr.ofVariant, hop, modeBit_of_fieldValue hmode, imm5Field_eq_ones_iff, himm]
  case br => simp [decodeVariant, Instr.ofVariant, hop, flagBit, ← getLsbD_eq_fieldValue]
  case jmp | ret => simp [decodeVariant, Instr.ofVariant, hop, baseField_eq_seven_iff, hbase7]
  case jsr | jsrr => simp [decodeVariant, Instr.ofVariant, hop, flagBit_of_fieldValue hflag]
  case ldb | ldr | ldi | stb | str | sti | lea | rti => simp [decodeVariant, Instr.ofVariant, hop]
  case lshf => simp [decodeVariant, Instr.ofVariant, hop, modeBit_of_fieldValue hmode]
  case rshfl | rshfa =>
    simp [decodeVariant, Instr.ofVariant, hop, modeBit_of_fieldValue hmode, arithBit_of_fieldValue harith]
  case trap => simp [decodeVariant, Instr.ofVariant, hop, variant_ofVector]

/-! ### The opcode table (spec/30_encoding.md "How to read a row") -/

theorem rowPattern (i : Instr) : Laws.RowPattern.Statement i := by
  cases i with
  | add dr sr1 sr2 => exact Laws.RowPattern.add dr sr1 sr2
  | addImm dr sr1 imm5 => exact Laws.RowPattern.addImm dr sr1 imm5
  | and dr sr1 sr2 => exact Laws.RowPattern.and dr sr1 sr2
  | andImm dr sr1 imm5 => exact Laws.RowPattern.andImm dr sr1 imm5
  | xor dr sr1 sr2 => exact Laws.RowPattern.xor dr sr1 sr2
  | xorImm dr sr1 imm5 => exact Laws.RowPattern.xorImm dr sr1 imm5
  | not dr sr => exact Laws.RowPattern.not dr sr
  | lshf dr sr amount4 => exact Laws.RowPattern.lshf dr sr amount4
  | rshfl dr sr amount4 => exact Laws.RowPattern.rshfl dr sr amount4
  | rshfa dr sr amount4 => exact Laws.RowPattern.rshfa dr sr amount4
  | br n z p offset9 => exact Laws.RowPattern.br n z p offset9
  | jmp baseR => exact Laws.RowPattern.jmp baseR
  | ret => exact Laws.RowPattern.ret
  | jsr offset11 => exact Laws.RowPattern.jsr offset11
  | jsrr baseR => exact Laws.RowPattern.jsrr baseR
  | ldb dr baseR offset6 => exact Laws.RowPattern.ldb dr baseR offset6
  | stb sr baseR offset6 => exact Laws.RowPattern.stb sr baseR offset6
  | ldr dr baseR offset6 => exact Laws.RowPattern.ldr dr baseR offset6
  | str sr baseR offset6 => exact Laws.RowPattern.str sr baseR offset6
  | ldi dr baseR offset6 => exact Laws.RowPattern.ldi dr baseR offset6
  | sti sr baseR offset6 => exact Laws.RowPattern.sti sr baseR offset6
  | lea dr offset9 => exact Laws.RowPattern.lea dr offset9
  | trap vector8 => exact Laws.RowPattern.trap vector8
  | getc => exact Laws.RowPattern.getc
  | out => exact Laws.RowPattern.out
  | puts => exact Laws.RowPattern.puts
  | inn => exact Laws.RowPattern.inn
  | putsp => exact Laws.RowPattern.putsp
  | halt => exact Laws.RowPattern.halt
  | rti => exact Laws.RowPattern.rti

theorem matchesWord_iff {row : OpcodeRow} {w : Word} : row.matchesWord w = true ↔ w &&& row.mask = row.value := by
  simp [OpcodeRow.matchesWord]

/-- A row's mask holds the opcode, and the bit that selects the format where the opcode has two. -/
theorem mask_holds_selection : ∀ row ∈ opcodeTable, row.value &&& row.mask = row.value ∧
    row.mask.extractLsb' 12 4 = BitVec.allOnes 4 ∧
    (opField row.value ∈ [0b0001#4, 0b0101#4, 0b1001#4, 0b1101#4] → row.mask.getLsbD 5 = true) ∧
    (opField row.value = 0b0100#4 → row.mask.getLsbD 11 = true) := by
  decide

/-- R96: the unused mask depends on the selection bits only. -/
theorem unusedMask_congr {v w : Word} (hop : opField v = opField w)
    (hmode : opField w ∈ [0b0001#4, 0b0101#4, 0b1001#4, 0b1101#4] → modeBit v = modeBit w)
    (hflag : opField w = 0b0100#4 → flagBit v = flagBit w) : unusedMask v = unusedMask w := by
  unfold unusedMask
  rw [hop]
  split <;> simp_all

/-- The words that a row matches have one format, the row's. -/
theorem unusedMask_of_matchesWord {row : OpcodeRow} (hrow : row ∈ opcodeTable) {w : Word}
    (h : row.matchesWord w = true) : unusedMask w = unusedMask row.value := by
  obtain ⟨hself, hop, hmode, hflag⟩ := mask_holds_selection row hrow
  have hagree := (matchesWord_iff.1 h).trans hself.symm
  exact unusedMask_congr (extractLsb'_congr_of_masked hagree 12 4 hop)
    (fun hfamily => getLsbD_congr_of_masked hagree 5 (hmode hfamily))
    (fun hjsr => getLsbD_congr_of_masked hagree 11 (hflag hjsr))

/-- No row looks at an unused bit of its format. -/
theorem mask_covers_used : ∀ row ∈ opcodeTable, ~~~unusedMask row.value &&& row.mask = row.mask := by
  decide

/-- The row of the decoded instruction matches the word. -/
theorem decoded_row_matches {w : Word} {i : Instr} (h : decode false w = .ok i) :
    ∃ row ∈ opcodeTable, row.mnemonic = i.mnemonic ∧ row.matchesWord w = true := by
  obtain ⟨row, hrow, hname, hmatch⟩ := rowPattern i
  have hmask : unusedMask w = unusedMask row.value := by
    rw [← unusedMask_of_matchesWord hrow hmatch, encode_of_decode h, (cleared_congr w).1]
  refine ⟨row, hrow, hname, matchesWord_iff.2 ?_⟩
  rwa [matchesWord_iff, encode_of_decode h, hmask, BitVec.and_assoc, mask_covers_used row hrow] at hmatch

/-- The rows that stand for one operand value of another row (R95, R222): NOT, RET and the TRAP services. -/
def specialRows : List OpcodeRow :=
  [⟨.not, 0x903F#16, 0xF03F#16⟩,
   ⟨.ret, 0xC1C0#16, 0xF1C0#16⟩,
   ⟨.getc, 0xF020#16, 0xF0FF#16⟩,
   ⟨.out, 0xF021#16, 0xF0FF#16⟩,
   ⟨.puts, 0xF022#16, 0xF0FF#16⟩,
   ⟨.inn, 0xF023#16, 0xF0FF#16⟩,
   ⟨.putsp, 0xF024#16, 0xF0FF#16⟩,
   ⟨.halt, 0xF025#16, 0xF0FF#16⟩]

/-- Of two rows whose values agree where both masks look, one that is no special row is the less specific. -/
theorem specificity_lt_of_compatible : ∀ row ∈ opcodeTable, ∀ other ∈ opcodeTable,
    row.value &&& other.mask = other.value &&& row.mask → other ≠ row → other ∉ specialRows →
    other.specificity < row.specificity := by
  decide

theorem values_agree_of_matchesWord {row other : OpcodeRow} {w : Word} (hrow : row.matchesWord w = true)
    (hother : other.matchesWord w = true) : row.value &&& other.mask = other.value &&& row.mask := by
  rw [← matchesWord_iff.1 hrow, ← matchesWord_iff.1 hother, BitVec.and_assoc, BitVec.and_assoc,
    BitVec.and_comm row.mask]

theorem row_eq_of_mnemonic_eq : ∀ row ∈ opcodeTable, ∀ other ∈ opcodeTable, row.mnemonic = other.mnemonic →
    row = other := by
  decide

section
variable {w : Word}

theorem decodeVariant_of_not_pattern (h : w &&& 0xF03F#16 = 0x903F#16) :
    decodeVariant w = .not (drField w) (baseField w) := by
  have hagree : w &&& 0xF03F#16 = 0x903F#16 &&& 0xF03F#16 := h
  have hop : opField w = 0b1001#4 := extractLsb'_congr_of_masked hagree 12 4 rfl
  have hmode : modeBit w = true := getLsbD_congr_of_masked hagree 5 rfl
  have himm : imm5Field w = 0b11111#5 := extractLsb'_congr_of_masked hagree 0 5 rfl
  simp [decodeVariant, hop, hmode, himm]

theorem decodeVariant_of_ret_pattern (h : w &&& 0xF1C0#16 = 0xC1C0#16) : decodeVariant w = .ret := by
  have hagree : w &&& 0xF1C0#16 = 0xC1C0#16 &&& 0xF1C0#16 := h
  have hop : opField w = 0b1100#4 := extractLsb'_congr_of_masked hagree 12 4 rfl
  have hbase : baseField w = 7#3 := extractLsb'_congr_of_masked hagree 6 3 rfl
  simp [decodeVariant, hop, hbase]

theorem decodeVariant_of_vector_pattern {v : Word} (hv : v &&& 0xF0FF#16 = v) (htrap : opField v = 0b1111#4)
    (h : w &&& 0xF0FF#16 = v) : decodeVariant w = .trap (vector8Field v) := by
  have hagree : w &&& 0xF0FF#16 = v &&& 0xF0FF#16 := h.trans hv.symm
  have hop : opField w = 0b1111#4 := (extractLsb'_congr_of_masked hagree 12 4 rfl).trans htrap
  have hvector : vector8Field w = vector8Field v := extractLsb'_congr_of_masked hagree 0 8 rfl
  simp [decodeVariant, hop, hvector]

end

/-- A word that a special row matches decodes to that row. -/
theorem mnemonic_of_specialRow_matches {row : OpcodeRow} (hrow : row ∈ specialRows) {w : Word} {i : Instr}
    (hmatch : row.matchesWord w = true) (h : decode false w = .ok i) : i.mnemonic = row.mnemonic := by
  obtain ⟨-, rfl⟩ := decode_eq_ok_iff.1 h
  rw [matchesWord_iff] at hmatch
  simp only [specialRows, List.mem_cons, List.not_mem_nil, or_false] at hrow
  obtain rfl | rfl | rfl | rfl | rfl | rfl | rfl | rfl := hrow
  · rw [decodeVariant_of_not_pattern hmatch]
    rfl
  · rw [decodeVariant_of_ret_pattern hmatch]
    rfl
  all_goals
    rw [decodeVariant_of_vector_pattern rfl rfl hmatch]
    rfl

/-- Settles O6: another matching row that is not less specific would be a special row, and so the decoded row. -/
theorem opcodeTableWinnerIsTheDecodedRow : Obligations.OpcodeTableWinnerIsTheDecodedRow := by
  intro w i h
  obtain ⟨row, hrow, hname, hmatch⟩ := decoded_row_matches h
  refine ⟨row, hrow, hname, hmatch, fun other hother hothermatch hne => ?_⟩
  refine specificity_lt_of_compatible row hrow other hother (values_agree_of_matchesWord hmatch hothermatch) hne ?_
  intro hspecial
  have hsame : other.mnemonic = row.mnemonic :=
    (mnemonic_of_specialRow_matches hspecial hothermatch h).symm.trans hname.symm
  exact hne (row_eq_of_mnemonic_eq other hother row hrow hsame)

/-! ### Operands (R99) -/

theorem signedField_of_signedOperand? {n : Nat} (hn : 0 < n) {k : Int} {f : BitVec n}
    (h : signedOperand? n k = some f) : signedField f = k := by
  obtain ⟨⟨hlow, hhigh⟩, rfl⟩ : (-(2 : Int) ^ (n - 1) ≤ k ∧ k < (2 : Int) ^ (n - 1)) ∧ BitVec.ofInt n k = f := by
    simpa [signedOperand?] using h
  rw [signedField_eq_toInt, BitVec.toInt_ofInt_eq_self hn hlow hhigh]

theorem unsignedOperand?_eq_some_iff {n k : Nat} {f : BitVec n} :
    unsignedOperand? n k = some f ↔ k < 2 ^ n ∧ f.toNat = k := by
  unfold unsignedOperand?
  split
  case isTrue hk => simp [hk, ← BitVec.toNat_inj, Nat.mod_eq_of_lt hk, eq_comm]
  case isFalse hk => simp [hk]

theorem isSome_signedOperand? (n : Nat) (k : Int) :
    (signedOperand? n k).isSome = decide (-(2 : Int) ^ (n - 1) ≤ k ∧ k < (2 : Int) ^ (n - 1)) := by
  unfold signedOperand?
  split
  case isTrue hrange => simp [hrange]
  case isFalse hrange => simpa using hrange

/-- Settles O7: within the two's-complement range the field's signed reading is the operand. -/
theorem operandsAreRangeChecked : Obligations.OperandsAreRangeChecked :=
  ⟨fun n hn k => ⟨isSome_signedOperand? n k, fun _ => signedField_of_signedOperand? (by omega)⟩,
    fun _ _ _ => unsignedOperand?_eq_some_iff⟩

/-! ### The two settings of STRICT_UNUSED_BITS (R96) and what the decoder returns (R93, R95) -/

theorem decode_strict_eq_default {w : Word} (h : unusedBits w = 0#16) : decode true w = decode false w := by
  simp [decode, h]

/-- Settles O50: a step looks at the setting in its decoding only. -/
theorem strictSettingOnlyMattersForUnusedBits : Obligations.StrictSettingOnlyMattersForUnusedBits := by
  refine ⟨fun s h => ?_, unusedBits_encode⟩
  unfold nextInstruction
  rw [decode_strict_eq_default h]

/-- Settles O1, by evaluating the decoder on the eleven words. -/
theorem specWordsDecode : Obligations.SpecWordsDecode := by
  unfold Obligations.SpecWordsDecode
  decide

/-- Settles O5: by default there is no error, and both settings answer the canonical `decodeVariant`. -/
theorem decoderReturnsCanonicalInstructions : Obligations.DecoderReturnsCanonicalInstructions := by
  constructor
  · intro w
    have hw := decodeVariant_canonical w
    exact ⟨_, decode_default w, hw, by simp [Instr.construct?, hw]⟩
  · intro w i h
    exact ⟨wellFormed_of_decode h, decode_eq_ok_iff.2 ⟨nofun, (decode_eq_ok_iff.1 h).2⟩⟩

end

end Sys2Proof

/-! ## The ALU rules of spec/40_alu.md: the flag law, and what each ALU instruction writes

Every ALU instruction ends in `writeResult`, whose whole effect `writeResult_spec` gives (R121 to R127, R130); each rule is
then a fact about the result alone. -/

namespace Sys2Proof.Machine

/-! ### setcc (R120) -/

theorem setcc_samePorts (v : Word) (s : State) : SamePorts s (setcc v s) :=
  ⟨setcc_faultMark v s, setcc_halted v s, setcc_input v s, setcc_drawn v s, setcc_ioLog v s⟩

/-- Settles O8: the flags left are `flagsOf v`, which meets the flag law. -/
theorem setccFollowsTheFlagLaw : Obligations.SetccFollowsTheFlagLaw := by
  intro v s
  rw [setcc_cc]
  exact ⟨flagLaw_flagsOf v, count_flagsOf v, setcc_trace v s, fun i _ => by simp, setcc_pc v s, fun k => by simp,
    setcc_samePorts v s⟩

/-! ### The outcome of each ALU instruction -/

section
variable (dr sr sr1 sr2 : RegNum) (imm5 : BitVec 5) (amount4 : BitVec 4) (s : State)

theorem exec_add : exec (.add dr sr1 sr2) s = .next (writeResult dr (s.reg sr1 + s.reg sr2) s) := rfl
theorem exec_addImm : exec (.addImm dr sr imm5) s = .next (writeResult dr (s.reg sr + sext imm5) s) := rfl
theorem exec_and : exec (.and dr sr1 sr2) s = .next (writeResult dr (s.reg sr1 &&& s.reg sr2) s) := rfl
theorem exec_andImm : exec (.andImm dr sr imm5) s = .next (writeResult dr (s.reg sr &&& sext imm5) s) := rfl
theorem exec_xor : exec (.xor dr sr1 sr2) s = .next (writeResult dr (s.reg sr1 ^^^ s.reg sr2) s) := rfl
theorem exec_xorImm : exec (.xorImm dr sr imm5) s = .next (writeResult dr (s.reg sr ^^^ sext imm5) s) := rfl
theorem exec_not : exec (.not dr sr) s = .next (writeResult dr (s.reg sr ^^^ 0xFFFF#16) s) := rfl
theorem exec_lshf : exec (.lshf dr sr amount4) s = .next (writeResult dr (s.reg sr <<< amount4.toNat) s) := rfl
theorem exec_rshfl : exec (.rshfl dr sr amount4) s = .next (writeResult dr (s.reg sr >>> amount4.toNat) s) := rfl
theorem exec_rshfa :
    exec (.rshfa dr sr amount4) s = .next (writeResult dr ((s.reg sr).sshiftRight amount4.toNat) s) := rfl

end

/-! ### Addition (R121) -/

/-- Settles O9: a word counts modulo 65536, and so does a sum of words. -/
theorem addWritesTheSumModulo65536 : Obligations.AddWritesTheSumModulo65536 :=
  ⟨fun dr sr1 sr2 s => ⟨_, _, exec_add dr sr1 sr2 s, isMod16_add (isMod16_toNat _) (isMod16_toNat _),
      writeResult_spec _ _ _⟩,
    fun dr sr1 imm5 s => ⟨_, _, exec_addImm dr sr1 imm5 s, isMod16_add (isMod16_toNat _) (isMod16_sext imm5),
      writeResult_spec _ _ _⟩⟩

/-! ### Bitwise results (R122 to R124) -/

/-- The complement of R124, bit by bit. -/
theorem getLsbD_xor_allOnes (a : Word) {k : Nat} (hk : k < 16) : (a ^^^ 0xFFFF#16).getLsbD k = !a.getLsbD k := by
  have hnot : a ^^^ 0xFFFF#16 = ~~~a := BitVec.xor_allOnes
  rw [hnot, BitVec.getLsbD_not, decide_eq_true hk, Bool.true_and]

/-- Settles O10. -/
theorem andWritesTheBitwiseAnd : Obligations.AndWritesTheBitwiseAnd := by
  constructor
  · intro dr sr1 sr2 s
    exact ⟨_, _, exec_and dr sr1 sr2 s, fun k _ => BitVec.getLsbD_and, writeResult_spec _ _ _⟩
  · intro dr sr1 imm5 s
    refine ⟨_, _, exec_andImm dr sr1 imm5 s, fun k hk => ?_, writeResult_spec _ _ _⟩
    rw [BitVec.getLsbD_and, getLsbD_sext imm5 hk]

/-- Settles O11: the all-ones immediate extends to the word that NOT complements with. -/
theorem xorAndNotWriteTheBitwiseResults : Obligations.XorAndNotWriteTheBitwiseResults := by
  refine ⟨fun dr sr1 sr2 s => ?_, fun dr sr1 imm5 s => ?_, fun dr sr s => ?_⟩
  · exact ⟨_, _, exec_xor dr sr1 sr2 s, fun k _ => BitVec.getLsbD_xor, writeResult_spec _ _ _⟩
  · refine ⟨_, _, exec_xorImm dr sr1 imm5 s, fun k hk => ?_, writeResult_spec _ _ _⟩
    rw [BitVec.getLsbD_xor, getLsbD_sext imm5 hk]
  · exact ⟨_, _, exec_not dr sr s, fun k hk => getLsbD_xor_allOnes _ hk, writeResult_spec _ _ _,
      exec_xorImm_allOnes dr sr s⟩

/-! ### Shifts (R125 to R127) -/

theorem toNat_ushiftRight_eq_div (a : Word) (k : Nat) : (a >>> k).toNat = a.toNat / 2 ^ k := by
  rw [BitVec.toNat_ushiftRight, Nat.shiftRight_eq_div_pow]

/-- An arithmetic right shift divides the signed reading and rounds down. -/
theorem signed16_sshiftRight (a : Word) (k : Nat) : signed16 (a.sshiftRight k) = Int.fdiv (signed16 a) (2 ^ k) := by
  rw [signed16_eq_toInt, signed16_eq_toInt, BitVec.toInt_sshiftRight, Int.shiftRight_eq_div_pow,
    Int.fdiv_eq_ediv_of_nonneg _ (by positivity)]
  norm_cast

/-- Settles O12. -/
theorem shiftsScaleByPowersOfTwo : Obligations.ShiftsScaleByPowersOfTwo :=
  fun dr sr amount4 s =>
    ⟨⟨_, _, exec_lshf dr sr amount4 s, isMod16_shiftLeft _ (isMod16_toNat _), writeResult_spec _ _ _⟩,
      ⟨_, _, exec_rshfl dr sr amount4 s, toNat_ushiftRight_eq_div _ _, writeResult_spec _ _ _⟩,
      ⟨_, _, exec_rshfa dr sr amount4 s, signed16_sshiftRight _ _, writeResult_spec _ _ _⟩⟩

end Sys2Proof.Machine

/-! ## The control rules of spec/41_control.md: where the PC goes, and that BR alone reads the flags

Jumps end in `setPc`, calls in `callTo`, whose whole effects `setPc_spec` and `callTo_spec` give. Of the other flags: every
instruction but BR either commutes with changing them or ends in a `writeResult` that does not look at them. -/

namespace Sys2Proof.Machine

/-! ### Jumps (R153, R154) -/

theorem exec_jmp (baseR : RegNum) (s : State) : exec (.jmp baseR) s = .next (setPc (s.reg baseR) s) := rfl
theorem exec_ret (s : State) : exec .ret s = .next (setPc (s.reg 7#3) s) := rfl

/-- Settles O14. -/
theorem jmpAndRetLoadThePc : Obligations.JmpAndRetLoadThePc :=
  ⟨fun baseR s => ⟨_, exec_jmp baseR s, setPc_pc _ s, setPc_spec _ s⟩,
    fun s => ⟨_, exec_ret s, setPc_pc _ s, setPc_spec _ s, (exec_jmp_seven s).trans (exec_ret s)⟩⟩

/-! ### Calls (R155, R156) -/

theorem exec_jsr (offset11 : BitVec 11) (s : State) :
    exec (.jsr offset11) s = .next (callTo (jsrTarget s.pc offset11) s) := rfl
theorem exec_jsrr (baseR : RegNum) (s : State) : exec (.jsrr baseR) s = .next (callTo (s.reg baseR) s) := rfl

theorem isMod16_jsrTarget (pc : Word) (offset11 : BitVec 11) :
    IsMod16 (jsrTarget pc offset11) (pc.toNat + 1 + 2 * signedField offset11) :=
  isMod16_add (isMod16_nextPc pc) (isMod16_sextDoubled offset11)

theorem callTo_samePorts (a : Word) (s : State) : SamePorts s (callTo a s) :=
  ⟨callTo_faultMark a s, callTo_halted a s, callTo_input a s, callTo_drawn a s, callTo_ioLog a s⟩

/-- A call links through R7 and, but for the PC, changes nothing else. -/
theorem callTo_spec (a : Word) (s : State) :
    IsMod16 ((callTo a s).reg 7#3) (s.pc.toNat + 1) ∧ SameRegsBut [7#3] s (callTo a s) ∧ (callTo a s).cc = s.cc ∧
      SameBytes s (callTo a s) ∧ SamePorts s (callTo a s) ∧
      (callTo a s).trace = s.trace ++ [.registerWrite 7#3 (s.reg 7#3) ((callTo a s).reg 7#3)] := by
  have hlink : (callTo a s).reg 7#3 = nextPc s.pc := by simp
  rw [hlink]
  exact ⟨isMod16_nextPc s.pc, callTo_sameRegsBut a s, callTo_cc a s, fun k => by simp, callTo_samePorts a s,
    callTo_trace a s⟩

/-- Settles O15: both targets are computed in the old state. -/
theorem jsrAndJsrrLinkThroughR7 : Obligations.JsrAndJsrrLinkThroughR7 :=
  ⟨fun offset11 s => ⟨_, exec_jsr offset11 s, isMod16_jsrTarget s.pc offset11, callTo_spec _ s⟩,
    fun baseR s => ⟨_, exec_jsrr baseR s, callTo_pc _ s, callTo_spec _ s⟩⟩

/-! ### The branch (R152) -/

theorem isMod16_branchTarget (pc : Word) (offset9 : BitVec 9) :
    IsMod16 (branchTarget pc offset9) (pc.toNat + 1 + signedField offset9) :=
  isMod16_add (isMod16_nextPc pc) (isMod16_sext offset9)

theorem exec_br_taken {n z p : Bool} {s : State} (h : branchTaken n z p s.cc = true) (offset9 : BitVec 9) :
    exec (.br n z p offset9) s = .next (setPc (branchTarget s.pc offset9) s) := by
  rw [exec_br, if_pos h]

theorem exec_br_not_taken {n z p : Bool} {s : State} (h : ¬ branchTaken n z p s.cc = true) (offset9 : BitVec 9) :
    exec (.br n z p offset9) s = .next (setPc (nextPc s.pc) s) := by
  rw [exec_br, if_neg h, advancePc]

/-! ### Other flags, for the operations that do not set them -/

section
variable (cc : Flags) (s : State)

theorem nextAnswer_withFlags : nextAnswer (withFlags cc s) = nextAnswer s := rfl

theorem ioReadChar_withFlags : ioReadChar (withFlags cc s) = withFlags cc (ioReadChar s) := by
  ext1 <;> simp [nextAnswer_withFlags]

theorem ioReadCharEcho_withFlags : ioReadCharEcho (withFlags cc s) = withFlags cc (ioReadCharEcho s) := by
  ext1 <;> simp [nextAnswer_withFlags]

theorem receiveChar_withFlags (answer : Option Byte) :
    receiveChar answer (withFlags cc s) = withFlags cc (receiveChar answer s) := by
  cases answer <;> rfl

theorem finishScan_withFlags (chars : Option (List Byte)) :
    finishScan chars (withFlags cc s) = mapNext (withFlags cc) (finishScan chars s) := by
  cases chars <;> rfl

theorem serviceGetc_withFlags : serviceGetc (withFlags cc s) = mapNext (withFlags cc) (serviceGetc s) := by
  unfold serviceGetc
  rw [nextAnswer_withFlags, ioReadChar_withFlags, receiveChar_withFlags]
  rfl

theorem serviceIn_withFlags : serviceIn (withFlags cc s) = mapNext (withFlags cc) (serviceIn s) := by
  unfold serviceIn
  rw [nextAnswer_withFlags, ioReadCharEcho_withFlags, receiveChar_withFlags]
  rfl

/-- No TRAP service looks at the flags, whatever the vector. -/
theorem routeTrap_withFlags (vector8 : BitVec 8) :
    routeTrap vector8 (withFlags cc s) = mapNext (withFlags cc) (routeTrap vector8 s) := by
  unfold routeTrap
  split_ifs
  · exact serviceGetc_withFlags cc s
  · rfl
  · exact finishScan_withFlags cc s _
  · exact serviceIn_withFlags cc s
  · exact finishScan_withFlags cc s _
  · rfl
  · rfl

variable {i : Instr}

/-- R26 and R152: an instruction that neither sets nor tests the flags carries them along. -/
theorem exec_withFlags_of_not_flagSetting (hf : flagSetting i = false) (hbr : ∀ n z p offset9, i ≠ .br n z p offset9) :
    exec i (withFlags cc s) = mapNext (withFlags cc) (exec i s) := by
  cases i with
  | br n z p offset9 => exact absurd rfl (hbr n z p offset9)
  | jmp | ret | jsr | jsrr | stb | str | sti | rti => rfl
  | trap vector8 => exact routeTrap_withFlags cc s vector8
  | getc => exact routeTrap_withFlags cc s 0x20#8
  | out => exact routeTrap_withFlags cc s 0x21#8
  | puts => exact routeTrap_withFlags cc s 0x22#8
  | inn => exact routeTrap_withFlags cc s 0x23#8
  | putsp => exact routeTrap_withFlags cc s 0x24#8
  | halt => exact routeTrap_withFlags cc s 0x25#8
  | _ => cases hf

/-! ### Other flags, for the flag-setting instructions -/

/-- A flag-setting instruction ends in `writeResult`, with a result that the old flags do not enter. -/
theorem exec_withFlags_of_flagSetting (hf : flagSetting i = true) : ∃ dr r,
    exec i s = .next (writeResult dr r s) ∧
      exec i (withFlags cc s) = .next (writeResult dr r (withFlags cc s)) := by
  cases i with
  | br | jmp | ret | jsr | jsrr | stb | str | sti | trap | getc | out | puts | inn | putsp | halt | rti => cases hf
  | _ => exact ⟨_, _, rfl, rfl⟩

/-- The events of `setcc` are the ones `withoutFlags` leaves out. -/
theorem filter_ccEvents (v : Word) : (ccEvents cc v).filter (fun ev => !ev.isConditionChange) = [] := by
  unfold ccEvents
  split <;> rfl

theorem withoutFlags_writeResult_withFlags (dr : RegNum) (r : Word) :
    withoutFlags (writeResult dr r (withFlags cc s)) = withoutFlags (writeResult dr r s) := by
  ext1 <;> simp [withoutFlags, List.filter_cons, filter_ccEvents]

theorem mapNext_withoutFlags_mapNext_withFlags (o : Host.Outcome State Fault Refusal) :
    mapNext withoutFlags (mapNext (withFlags cc) o) = mapNext withoutFlags o := by
  cases o <;> rfl

end

/-- Settles O13: a branch sets the PC by `branchTaken`; any other instruction is flag-setting or carries the flags
along. -/
theorem brIsTakenOnAnyMatchingFlag : Obligations.BrIsTakenOnAnyMatchingFlag := by
  constructor
  · intro n z p offset9 s
    rw [← branchTaken_iff]
    by_cases h : branchTaken n z p s.cc = true
    · exact ⟨_, exec_br_taken h offset9, setPc_spec _ s, fun _ => isMod16_branchTarget s.pc offset9, absurd h⟩
    · exact ⟨_, exec_br_not_taken h offset9, setPc_spec _ s, fun ht => absurd ht h, fun _ => isMod16_nextPc s.pc⟩
  · intro i cc s hbr
    cases hf : flagSetting i with
    | false =>
      rw [exec_withFlags_of_not_flagSetting cc s hf hbr]
      exact ⟨mapNext_withoutFlags_mapNext_withFlags cc _, fun hset => by cases hset⟩
    | true =>
      obtain ⟨dr, r, hs, hcc⟩ := exec_withFlags_of_flagSetting cc s hf
      rw [hs, hcc]
      refine ⟨congrArg Host.Outcome.next (withoutFlags_writeResult_withFlags cc s dr r), ?_⟩
      rintro - t u ⟨⟩ ⟨⟩
      rw [writeResult_cc, writeResult_cc]

end Sys2Proof.Machine

/-! ## The load and store rules of spec/42_load_store.md: the addresses, and what each access reads and writes

Loads and LEA end in `writeResult`, word stores in `advancePc` of a `memWrite`, whose whole effects `writeResult_spec` and
`advancePc_memWrite_spec` give; what is left is the address of each access (R180, R183, R187) and, for LDB and STB, that
the lane of the word at a byte address is the memory byte of that number (`toNat_eq_laneKey`). -/

namespace Sys2Proof.Machine

/-! ### The addresses (R180, R183, R187) -/

theorem isMod16_byteAddress (base : Word) (offset6 : BitVec 6) :
    IsMod16 (byteAddress base offset6) (base.toNat + signedField offset6) :=
  isMod16_add (isMod16_toNat base) (isMod16_sext offset6)

theorem isMod16_wordAddress (base : Word) (offset6 : BitVec 6) :
    IsMod16 (wordAddress base offset6) (base.toNat + 2 * signedField offset6) :=
  isMod16_add (isMod16_toNat base) (isMod16_sextDoubled offset6)

theorem isMod16_leaAddress (pc : Word) (offset9 : BitVec 9) :
    IsMod16 (leaAddress pc offset9) (pc.toNat + 1 + 2 * signedField offset9) :=
  isMod16_add (isMod16_nextPc pc) (isMod16_sextDoubled offset9)

/-! ### The word and the lane of a byte address (R180) -/

theorem toNat_wordOfByte (b : Word) : (wordOfByte b).toNat = b.toNat / 2 := toNat_ushiftRight_eq_div b 1

theorem laneOfByte_eq_decide (b : Word) : laneOfByte b = decide (b.toNat % 2 = 1) := Nat.testBit_zero b.toNat

/-- The memory's key for a lane of the word at `a` (R55). -/
def laneKey (lane : Bool) (a : Word) : Nat := if lane then Memory.highKey a else Memory.lowKey a

/-- A byte address is the memory's key for the byte it names. -/
theorem toNat_eq_laneKey (b : Word) : b.toNat = laneKey (laneOfByte b) (wordOfByte b) := by
  rw [laneKey, laneOfByte_eq_decide, Memory.highKey, Memory.lowKey, toNat_wordOfByte]
  by_cases hodd : b.toNat % 2 = 1 <;> simp [hodd] <;> omega

/-- Settles O16: 0x7FFF is the half of the last byte address. -/
theorem byteAddressesReachTheLowHalf : Obligations.ByteAddressesReachTheLowHalf := by
  intro base offset6 b
  have hword := toNat_wordOfByte b
  have hlow : (wordOfByte b).toNat ≤ 0x7FFF := by have := b.isLt; omega
  exact ⟨isMod16_byteAddress base offset6, hword, hlow, by simp [laneOfByte_eq_decide], toNat_eq_laneKey b⟩

/-! ### Bytes of a word, read and replaced (R181, R182) -/

theorem toNat_lowByte (w : Word) : (lowByte w).toNat = w.toNat % 256 := by
  simp [lowByte]

theorem selectByte_readWord (lane : Bool) (m : Memory) (a : Word) :
    selectByte lane (m.readWord a) = m.readByte (laneKey lane a) := by
  cases lane
  · exact lowByte_readWord m a
  · exact highByte_readWord m a

theorem lowByte_mergeByte (lane : Bool) (v : Byte) (w : Word) :
    lowByte (mergeByte lane v w) = if lane then lowByte w else v := by
  cases lane <;> exact lowByte_lanes _ _

theorem highByte_mergeByte (lane : Bool) (v : Byte) (w : Word) :
    highByte (mergeByte lane v w) = if lane then v else highByte w := by
  cases lane <;> exact highByte_lanes _ _

/-- Writing back a word with one lane replaced changes that one byte (R57). -/
theorem Memory.readByte_writeWord_mergeByte (m : Memory) (a : Word) (lane : Bool) (v : Byte) (k : Nat) :
    (m.writeWord a (mergeByte lane v (m.readWord a))).readByte k = if k = laneKey lane a then v else m.readByte k := by
  have hbytes : (m.writeWord a (mergeByte lane v (m.readWord a))).readByte k =
      if k = highKey a then (if lane then v else m.readByte (highKey a))
      else if k = lowKey a then (if lane then m.readByte (lowKey a) else v) else m.readByte k := by
    rw [← highByte_readWord, ← lowByte_readWord, ← highByte_mergeByte, ← lowByte_mergeByte]
    exact readByte_writeWord m a _ k
  rw [hbytes]
  have hne := lowKey_ne_highKey a a
  cases lane with
  | false =>
    by_cases hk : k = highKey a
    · simp [laneKey, hk, hne.symm]
    · simp [laneKey, hk]
  | true =>
    by_cases hk : k = lowKey a
    · simp [laneKey, hk, hne]
    · simp [laneKey, hk]

/-! ### LDB (R181) -/

theorem exec_ldb (dr baseR : RegNum) (offset6 : BitVec 6) (s : State) :
    exec (.ldb dr baseR offset6) s =
      .next (writeResult dr (sext (s.mem.readByte (byteAddress (s.reg baseR) offset6).toNat)) s) := by
  rw [toNat_eq_laneKey, ← selectByte_readWord]
  rfl

/-- Settles O17: extending a byte to a word keeps its signed reading. -/
theorem ldbLoadsOneSignExtendedByte : Obligations.LdbLoadsOneSignExtendedByte :=
  fun dr baseR offset6 s =>
    ⟨_, _, exec_ldb dr baseR offset6 s, signed16_sext (by decide) _, writeResult_spec _ _ _⟩

/-! ### STB (R182) -/

/-- The state after storing byte `v` at byte address `b`: the word is read, one lane replaced, and the word written. -/
def storeByte (b : Word) (v : Byte) (s : State) : State :=
  advancePc (memWrite (wordOfByte b) (mergeByte (laneOfByte b) v (memRead (wordOfByte b) s)) s)

theorem exec_stb (sr baseR : RegNum) (offset6 : BitVec 6) (s : State) :
    exec (.stb sr baseR offset6) s = .next (storeByte (byteAddress (s.reg baseR) offset6) (lowByte (s.reg sr)) s) := rfl

theorem storeByte_readByte (b : Word) (v : Byte) (s : State) (k : Nat) :
    (storeByte b v s).mem.readByte k = if k = b.toNat then v else s.mem.readByte k := by
  rw [toNat_eq_laneKey b]
  exact Memory.readByte_writeWord_mergeByte _ _ _ _ _

theorem storeByte_wordStored (b : Word) (v : Byte) (s : State) :
    WordStored s (storeByte b v s) (wordOfByte b) ((storeByte b v s).mem.readWord (wordOfByte b)) := by
  have hstore : WordStored s (storeByte b v s) (wordOfByte b) _ := advancePc_memWrite_spec _ _ s
  rw [hstore.value]
  exact hstore

/-- Settles O18: the bytes of memory after the store are those before it, but for byte `b`. -/
theorem stbStoresOneByte : Obligations.StbStoresOneByte := by
  intro sr baseR offset6 s
  refine ⟨_, exec_stb sr baseR offset6 s, ?_⟩
  rintro b rfl
  refine ⟨?_, ?_, storeByte_wordStored _ _ s⟩
  · rw [storeByte_readByte, if_pos rfl, toNat_lowByte]
  · intro k hk
    rw [storeByte_readByte, if_neg hk]

/-! ### Words (R183 to R186) -/

theorem exec_ldr (dr baseR : RegNum) (offset6 : BitVec 6) (s : State) : exec (.ldr dr baseR offset6) s =
    .next (writeResult dr (s.mem.readWord (wordAddress (s.reg baseR) offset6)) s) := rfl

theorem exec_ldi (dr baseR : RegNum) (offset6 : BitVec 6) (s : State) : exec (.ldi dr baseR offset6) s =
    .next (writeResult dr (s.mem.readWord (s.mem.readWord (wordAddress (s.reg baseR) offset6))) s) := rfl

/-- Settles O19: both loads read memory at the same word address. -/
theorem ldrAndLdiLoadWords : Obligations.LdrAndLdiLoadWords :=
  ⟨fun dr baseR offset6 s =>
      ⟨_, _, exec_ldr dr baseR offset6 s, isMod16_wordAddress _ offset6, writeResult_spec _ _ _⟩,
    fun dr baseR offset6 s =>
      ⟨_, _, exec_ldi dr baseR offset6 s, isMod16_wordAddress _ offset6, writeResult_spec _ _ _⟩⟩

/-- Settles O20: the pointer of STI is read in the old state. -/
theorem strAndStiStoreWords : Obligations.StrAndStiStoreWords := by
  constructor
  · intro sr baseR offset6 s
    refine ⟨_, exec_str sr baseR offset6 s, ?_⟩
    rintro ea rfl
    exact ⟨isMod16_wordAddress _ offset6, advancePc_memWrite_spec _ _ s⟩
  · intro sr baseR offset6 s
    refine ⟨_, exec_sti sr baseR offset6 s, ?_⟩
    rintro ea rfl
    exact ⟨isMod16_wordAddress _ offset6, advancePc_memWrite_spec _ _ s⟩

/-! ### LEA (R187) -/

theorem exec_lea (dr : RegNum) (offset9 : BitVec 9) (s : State) :
    exec (.lea dr offset9) s = .next (writeResult dr (leaAddress s.pc offset9) s) := rfl

/-- Settles O21: the address is a sum modulo 65536. -/
theorem leaWritesTheAddress : Obligations.LeaWritesTheAddress :=
  fun dr offset9 s => ⟨_, _, exec_lea dr offset9 s, isMod16_leaAddress s.pc offset9, writeResult_spec _ _ _⟩

end Sys2Proof.Machine

/-! ## The TRAP and RTI rules of spec/43_trap_system.md: the services, the scans' ends, the router and RTI

GETC and IN are one operation, `receiveAnswer`, with two requests; OUT, PUTS and PUTSP end in `ioWriteChars`, whose whole
effect `advancePc_ioWriteChars_spec` gives. For the two scans what is left is that 65536 words from R0 on are all of memory
(R227), so that a terminator anywhere is met within the scan's fuel. -/

namespace Sys2Proof.Machine

/-! ### GETC and IN (R223, R224, R228) -/

/-- What GETC and IN do, with the request `ev` that they make: take the next answer and receive it into R0. -/
def receiveAnswer (ev : IoEvent) (s : State) : State :=
  advancePc (receiveChar (nextAnswer s) { takeAnswer s with ioLog := s.ioLog ++ [ev] })

theorem exec_getc_receiveAnswer (s : State) : exec .getc s = .next (receiveAnswer (.readChar (nextAnswer s)) s) := rfl
theorem exec_inn_receiveAnswer (s : State) : exec .inn s = .next (receiveAnswer (.readCharEcho (nextAnswer s)) s) := rfl

section
variable (ev : IoEvent) (s : State)

@[simp] theorem receiveAnswer_ioLog : (receiveAnswer ev s).ioLog = s.ioLog ++ [ev] := by simp [receiveAnswer]
@[simp] theorem receiveAnswer_input : (receiveAnswer ev s).input = s.input.tail := by simp [receiveAnswer]
@[simp] theorem receiveAnswer_drawn :
    (receiveAnswer ev s).drawn = s.drawn + if s.input.isEmpty then 1 else 0 := by simp [receiveAnswer]

/-- A register after the request is the register before it. -/
theorem request_reg (j : RegNum) : State.reg { takeAnswer s with ioLog := s.ioLog ++ [ev] } j = s.reg j :=
  takeAnswer_reg s j

theorem receiveAnswer_of_some {b : Byte} (h : nextAnswer s = some b) : (receiveAnswer ev s).reg 0#3 = zext b ∧
    (receiveAnswer ev s).trace = s.trace ++ [.registerWrite 0#3 (s.reg 0#3) (zext b)] := by
  rw [receiveAnswer, h, receiveChar_some]
  exact ⟨by simp, by rw [advancePc_trace, writeReg_trace, request_reg]; simp⟩

theorem receiveAnswer_of_none (h : nextAnswer s = none) :
    (receiveAnswer ev s).reg 0#3 = s.reg 0#3 ∧ (receiveAnswer ev s).trace = s.trace := by
  rw [receiveAnswer, h, receiveChar_none]
  exact ⟨request_reg ev s 0#3, by simp⟩

theorem receiveAnswer_frame : SameRegsBut [0#3] s (receiveAnswer ev s) ∧ (receiveAnswer ev s).cc = s.cc ∧
    IsMod16 (receiveAnswer ev s).pc (s.pc.toNat + 1) ∧ SameBytes s (receiveAnswer ev s) ∧
    (receiveAnswer ev s).faultMark = s.faultMark ∧ (receiveAnswer ev s).halted = s.halted := by
  unfold receiveAnswer
  refine ⟨fun j hj => ?_, by simp, ?_, fun k => by simp, by simp, by simp⟩
  · rw [advancePc_reg, receiveChar_sameRegsBut _ _ j hj, request_reg]
  · simpa using isMod16_nextPc s.pc

end

/-- R224: the next answer is the first queued one, or the oracle's when none is queued. -/
theorem nextAnswer_cases (s : State) : (∃ rest, s.input = nextAnswer s :: rest) ∨
    (s.input = [] ∧ nextAnswer s = Config.inputOracle s.drawn) := by
  unfold nextAnswer
  cases s.input with
  | cons answer rest => exact .inl ⟨rest, rfl⟩
  | nil => exact .inr ⟨rfl, rfl⟩

theorem toNat_zext_byte (b : Byte) : (zext b).toNat = b.toNat := BitVec.toNat_setWidth_of_le (by decide)

/-- Settles O23: both receive the next answer, under two different requests. -/
theorem getcAndInReceiveACharacter : Obligations.GetcAndInReceiveACharacter := by
  intro s
  refine ⟨_, _, nextAnswer s, exec_getc_receiveAnswer s, exec_inn_receiveAnswer s, ?_, receiveAnswer_ioLog _ s,
    receiveAnswer_ioLog _ s, fun b hb => ?_, fun hnone => ?_, ?_⟩
  · obtain ⟨rest, hinput⟩ | ⟨hinput, horacle⟩ := nextAnswer_cases s
    · exact .inl ⟨rest, hinput, by simp [hinput]⟩
    · exact .inr ⟨hinput, horacle, by simp [hinput]⟩
  · obtain ⟨hreg, htrace⟩ := receiveAnswer_of_some (.readChar (nextAnswer s)) s hb
    obtain ⟨hregIn, htraceIn⟩ := receiveAnswer_of_some (.readCharEcho (nextAnswer s)) s hb
    rw [hreg, hregIn, htrace, htraceIn]
    exact ⟨toNat_zext_byte b, toNat_zext_byte b, rfl, rfl⟩
  · obtain ⟨hreg, htrace⟩ := receiveAnswer_of_none (.readChar (nextAnswer s)) s hnone
    obtain ⟨hregIn, htraceIn⟩ := receiveAnswer_of_none (.readCharEcho (nextAnswer s)) s hnone
    exact ⟨hreg, hregIn, htrace, htraceIn⟩
  · rintro v (rfl | rfl)
    · exact receiveAnswer_frame _ s
    · exact receiveAnswer_frame _ s

theorem receiveAnswer_console (ev : IoEvent) (s : State) : (receiveAnswer ev s).console = s.console ++ consoleOf ev := by
  simp [State.console]

/-- Settles O31: the output of one request is `consoleOf` of it. -/
theorem inPromptsAndEchoes : Obligations.InPromptsAndEchoes := by
  intro s
  refine ⟨⟨_, exec_inn_receiveAnswer s, ?_⟩, ⟨_, exec_getc_receiveAnswer s, ?_⟩⟩
  · rw [receiveAnswer_console, List.append_assoc]; rfl
  · rw [receiveAnswer_console]; exact List.append_nil _

/-! ### The ends of the scans (R226, R227, R230) -/

theorem exists_first_of_exists_lt {p : Nat → Prop} [DecidablePred p] {bound : Nat} (h : ∃ n < bound, p n) :
    ∃ n < bound, p n ∧ ∀ k < n, ¬ p k := by
  have hp : ∃ n, p n := h.imp fun _ hn => hn.2
  obtain ⟨n, hlt, hn⟩ := h
  exact ⟨Nat.find hp, (Nat.find_min' hp hn).trans_lt hlt, Nat.find_spec hp, fun _ => Nat.find_min hp⟩

/-- 65536 words from any address on are all of memory. -/
theorem exists_word_offset (base a : Word) : ∃ n < scanBound, base + BitVec.ofNat 16 n = a :=
  ⟨(a - base).toNat, (a - base).isLt, by
    rw [BitVec.ofNat_toNat, BitVec.setWidth_eq, BitVec.add_comm, BitVec.sub_add_cancel]⟩

/-- The bytes of 65536 words from any byte on are all of memory. -/
theorem exists_byte_offset {base k : Nat} (hbase : base < byteKeys) (hk : k < byteKeys) :
    ∃ n < 2 * scanBound, (base + n) % byteKeys = k := by
  unfold byteKeys scanBound at *
  exact ⟨(k + 131072 - base) % 131072, by omega, by omega⟩

/-- The requests of a scan's characters, written per position. -/
theorem writeChars_range_spec (n : Nat) (f : Nat → Byte) (s : State) :
    OnlyRequested s (advancePc (ioWriteChars ((List.range n).map f) s))
      ((List.range n).map fun k => .writeChar (f k)) := by
  have h := advancePc_ioWriteChars_spec ((List.range n).map f) s
  rwa [List.map_map] at h

/-- PUTS over a memory with a zero word: n words, up to the first zero word from R0 on. -/
theorem exec_puts_of_zero_word {s : State} (h : ∃ a, s.mem.readWord a = 0#16) :
    ∃ n, s.mem.readWord (s.reg 0#3 + BitVec.ofNat 16 n) = 0#16 ∧
      (∀ k < n, s.mem.readWord (s.reg 0#3 + BitVec.ofNat 16 k) ≠ 0#16) ∧
      exec .puts s = .next (advancePc (ioWriteChars ((List.range n).map fun k =>
        s.mem.readByte (Memory.lowKey (s.reg 0#3 + BitVec.ofNat 16 k))) s)) := by
  obtain ⟨a, ha⟩ := h
  obtain ⟨offset, hlt, rfl⟩ := exists_word_offset (s.reg 0#3) a
  obtain ⟨n, hfuel, hzero, hbefore⟩ := exists_first_of_exists_lt
    (p := fun n => s.mem.readWord (s.reg 0#3 + BitVec.ofNat 16 n) = 0#16) ⟨offset, hlt, ha⟩
  refine ⟨n, hzero, hbefore, ?_⟩
  rw [exec_puts, putsScan_of_first_zero hzero hbefore hfuel]
  simp only [lowByte_readWord]
  rfl

theorem exec_puts_of_no_zero_word {s : State} (h : ∀ a, s.mem.readWord a ≠ 0#16) :
    exec .puts s = .fault .scanNeverStops := by
  rw [exec_puts, putsScan_eq_none fun k _ => h _]
  rfl

/-- PUTSP over a memory with a zero byte: n bytes, up to the first zero byte from the low byte of word R0 on. -/
theorem exec_putsp_of_zero_byte {s : State} (h : ∃ k < byteKeys, s.mem.readByte k = 0#8) :
    ∃ n, s.mem.readByte ((Memory.lowKey (s.reg 0#3) + n) % byteKeys) = 0#8 ∧
      (∀ k < n, s.mem.readByte ((Memory.lowKey (s.reg 0#3) + k) % byteKeys) ≠ 0#8) ∧
      exec .putsp s = .next (advancePc (ioWriteChars ((List.range n).map fun k =>
        s.mem.readByte ((Memory.lowKey (s.reg 0#3) + k) % byteKeys)) s)) := by
  obtain ⟨key, hkey, hbyte⟩ := h
  obtain ⟨offset, hlt, rfl⟩ := exists_byte_offset (Memory.lowKey_lt (s.reg 0#3)) hkey
  obtain ⟨n, hfuel, hzero, hbefore⟩ := exists_first_of_exists_lt
    (p := fun n => s.mem.readByte ((Memory.lowKey (s.reg 0#3) + n) % byteKeys) = 0#8) ⟨offset, hlt, hbyte⟩
  refine ⟨n, hzero, hbefore, ?_⟩
  rw [exec_putsp, putspScan_of_first_zero hzero hbefore hfuel]
  rfl

theorem exec_putsp_of_no_zero_byte {s : State} (h : ∀ k < byteKeys, s.mem.readByte k ≠ 0#8) :
    exec .putsp s = .fault .scanNeverStops := by
  rw [exec_putsp, putspScan_eq_none fun k _ => h _ (Nat.mod_lt _ (by decide))]
  rfl

/-- Settles O25: the first zero word lies less than 65536 words from R0. -/
theorem putsWritesWordsUpToTheZeroWord : Obligations.PutsWritesWordsUpToTheZeroWord := by
  intro s h
  obtain ⟨n, hzero, hbefore, hexec⟩ := exec_puts_of_zero_word h
  exact ⟨_, n, hexec, hzero, hbefore, writeChars_range_spec n _ s, by simp⟩

/-- Settles O26: the first zero byte lies less than 131072 bytes from the low byte of word R0. -/
theorem putspWritesBytesUpToTheZeroByte : Obligations.PutspWritesBytesUpToTheZeroByte := by
  intro s h
  obtain ⟨n, hzero, hbefore, hexec⟩ := exec_putsp_of_zero_byte h
  exact ⟨_, n, hexec, hzero, hbefore, writeChars_range_spec n _ s, by simp⟩

/-- An outcome that is a next state when `P` holds and the fault `r` when it does not is so exactly then. -/
theorem next_iff_and_fault_iff {o : Host.Outcome State Fault Refusal} {P : Prop} {r : Fault}
    (hnext : P → ∃ t, o = .next t) (hfault : ¬ P → o = .fault r) :
    ((∃ t, o = .next t) ↔ P) ∧ (o = .fault r ↔ ¬ P) := by
  by_cases hP : P
  · obtain ⟨t, rfl⟩ := hnext hP
    simp [hP]
  · simp [hfault hP, hP]

/-- Settles O27: a scan meets a terminator that memory holds, and is stuck when memory holds none. -/
theorem scansAreStuckExactlyWithoutATerminator : Obligations.ScansAreStuckExactlyWithoutATerminator := by
  intro s
  have hputs : (∃ a, s.mem.readWord a = 0#16) → ∃ t, exec .puts s = .next t := fun h =>
    have ⟨_, _, _, hexec⟩ := exec_puts_of_zero_word h
    ⟨_, hexec⟩
  have hputsp : (∃ k < byteKeys, s.mem.readByte k = 0#8) → ∃ t, exec .putsp s = .next t := fun h =>
    have ⟨_, _, _, hexec⟩ := exec_putsp_of_zero_byte h
    ⟨_, hexec⟩
  obtain ⟨hnext, hstuck⟩ := next_iff_and_fault_iff hputs fun h => exec_puts_of_no_zero_word (by simpa using h)
  obtain ⟨hnextp, hstuckp⟩ := next_iff_and_fault_iff hputsp fun h => exec_putsp_of_no_zero_byte (by simpa using h)
  exact ⟨hnext, by simpa using hstuck, hnextp, by simpa using hstuckp⟩

/-! ### Who touches the console (R222) -/

theorem exec_ioLog {i : Instr} (hw : i.wellFormed = true) (hc : usesConsole i = false) {s t : State}
    (h : exec i s = .next t) : t.ioLog = s.ioLog := by
  cases ExecShape.of_next hw h with
  | getc hi | inn hi | halt hi => simp [hi, usesConsole] at hc
  | write bs hi => obtain rfl | rfl | rfl := hi <;> simp [usesConsole] at hc
  | _ => simp

/-- GETC and IN alone take an answer. -/
theorem exec_input_drawn {i : Instr} (hw : i.wellFormed = true) (hgetc : i ≠ .getc) (hinn : i ≠ .inn) {s t : State}
    (h : exec i s = .next t) : t.input = s.input ∧ t.drawn = s.drawn := by
  cases ExecShape.of_next hw h with
  | getc hi => exact absurd hi hgetc
  | inn hi => exact absurd hi hinn
  | _ => simp

/-- Settles O36: an instruction outside the six services is none of HALT, GETC and IN. -/
theorem onlyTrapServicesTouchTheConsole : Obligations.OnlyTrapServicesTouchTheConsole := by
  intro i s t hw h
  refine ⟨fun hc => ?_, fun hi => exec_halted hw hi h, fun hgetc hinn => exec_input_drawn hw hgetc hinn h⟩
  have hne : ∀ j, usesConsole j = true → i ≠ j := by
    rintro j hj rfl
    simp [hj] at hc
  obtain ⟨hinput, hdrawn⟩ := exec_input_drawn hw (hne .getc rfl) (hne .inn rfl) h
  exact ⟨exec_halted hw (hne .halt rfl) h, hinput, hdrawn, exec_ioLog hw hc h⟩

/-! ### The router (R221, R232) -/

/-- Settles O22: the service row of a mapped vector is the router at that vector. -/
theorem trapRouterDispatchesMappedVectors : Obligations.TrapRouterDispatchesMappedVectors :=
  fun _ => ⟨rfl, rfl, rfl, rfl, rfl, rfl⟩

theorem trap_wellFormed_of_unmapped : ∀ vector8 : BitVec 8, vector8.toNat < 0x20 ∨ 0x25 < vector8.toNat →
    (Instr.trap vector8).wellFormed = true := by
  decide

/-- Settles O29: a vector outside 0x20 to 0x25 is in no arm of the dispatch table. -/
theorem unmappedTrapIsANoOp : Obligations.UnmappedTrapIsANoOp := by
  intro vector8 s h
  refine ⟨advancePc s, ?_, isMod16_nextPc s.pc, setPc_spec (nextPc s.pc) s⟩
  rw [exec_trap, routeTrap_unmapped (trap_wellFormed_of_unmapped vector8 h)]

/-! ### OUT, HALT and RTI (R225, R231, R235) -/

/-- Settles O24. -/
theorem outWritesTheLowByteOfR0 : Obligations.OutWritesTheLowByteOfR0 :=
  fun s => ⟨_, _, exec_out s, toNat_lowByte _, advancePc_ioWriteChars_spec _ s, by simp⟩

theorem exec_halt (s : State) : exec .halt s = .next (advancePc (ioHalt s)) := rfl

theorem advancePc_ioHalt_spec (s : State) : OnlyRequested s (advancePc (ioHalt s)) [.halt] where
  ioLog := by simp
  pc := by simpa using isMod16_nextPc s.pc
  regs := fun i _ => by simp
  flags := by simp
  bytes := fun k => by simp
  faultMark := by simp
  input := by simp
  drawn := by simp
  trace := by simp

/-- Settles O28. -/
theorem haltSetsTheLatchAndCompletes : Obligations.HaltSetsTheLatchAndCompletes :=
  fun s => ⟨_, exec_halt s, by simp, advancePc_ioHalt_spec s⟩

theorem exec_rti (s : State) :
    exec .rti s = .next (raiseFatal (.unimplementedInstruction s.pc (s.mem.readWord s.pc)) s) := rfl

/-- Settles O30: raising an error sets the fault mark and no other field. -/
theorem rtiRaisesUnimplementedInstruction : Obligations.RtiRaisesUnimplementedInstruction := by
  intro s
  refine ⟨_, exec_rti s, raiseFatal_faultMark _ s, raiseFatal_pc _ s, fun j _ => raiseFatal_reg _ s j, ?_⟩
  exact ⟨raiseFatal_cc _ s, fun k => by rw [raiseFatal_mem], by simp⟩

end Sys2Proof.Machine

/-! ## The exception rules of spec/60_exceptions.md: the checks of a step, precise errors, and the trace

What a step returns at a set mark, at the latch and with an error is said once each (R306); a step marks an error only on
a DecodeError or on RTI (`nextInstruction_marks`). Of the trace: every operation commutes with putting events before it
(R275). -/

namespace Sys2Proof.Machine

/-! ### What a step returns (R306) -/

theorem stepReturn_of_mark {s : State} {e : FatalError} (h : s.faultMark = some e) (strict : Bool) :
    stepReturn strict s = .err e := by
  unfold stepReturn; rw [h]

theorem stepReturn_of_halted {s : State} (hm : s.faultMark = none) (hh : s.halted = true) (strict : Bool) :
    stepReturn strict s = .notExecuted := by
  unfold stepReturn ioIsHalted; rw [hm, hh]; rfl

theorem stepReturn_of_marked_next {strict : Bool} {s t : State} {e : FatalError} (hr : Running s)
    (h : nextInstruction strict s = .next t) (ht : t.faultMark = some e) : stepReturn strict s = .err e := by
  obtain ⟨hm, hh⟩ := hr
  unfold stepReturn ioIsHalted
  simp [hm, hh, h, ht]

/-- R235: a step that fetches RTI emits its instruction_start and raises the error. -/
theorem runInstruction_rti (s : State) : runInstruction .rti s = .next
    (raiseFatal (.unimplementedInstruction s.pc (fetchWord s)) (emit (.instructionStart s.pc .rti) s)) := rfl

/-! ### The order of the checks (R266, R267, R284) -/

/-- Settles O42: the invariant leaves the latch clear, so `run` comes to the mark. -/
theorem faultsAreSticky : Obligations.FaultsAreSticky := by
  intro strict s e h
  refine ⟨nextInstruction_of_mark h strict, stepReturn_of_mark h strict, fun hs max => ?_⟩
  have hh : s.halted = false := hs.oneEnd.resolve_left (by simp [h])
  exact run_succ_of_mark hh h strict max

/-- Settles O43. -/
theorem haltedStepsAreNoOps : Obligations.HaltedStepsAreNoOps :=
  fun strict _ hh hm =>
    ⟨nextInstruction_of_halted hm hh strict, stepReturn_of_halted hm hh strict, run_of_halted hh strict⟩

/-- Settles O44. -/
theorem checksComeInPriorityOrder : Obligations.ChecksComeInPriorityOrder := by
  intro strict s
  refine ⟨fun e h => stepReturn_of_mark h strict, fun hm hh => stepReturn_of_halted hm hh strict,
    fun hr reason hd => ?_, fun hr hd => ?_⟩
  · exact stepReturn_of_marked_next hr (nextInstruction_of_error hr hd) (raiseFatal_faultMark _ s)
  · have hstep := (nextInstruction_of_ok hr hd).trans (runInstruction_rti s)
    exact stepReturn_of_marked_next hr hstep (raiseFatal_faultMark _ _)

/-! ### Precise errors (R264, R282) -/

/-- The two ways a step can mark an error: the decoder rejects the word, or the word is RTI. -/
theorem nextInstruction_marks {strict : Bool} {s t : State} {e : FatalError} (h : nextInstruction strict s = .next t)
    (ht : t.faultMark = some e) :
    (strict = true ∧ unusedBits (fetchWord s) ≠ 0#16 ∧
      t = raiseFatal (.decodeError s.pc (fetchWord s) .nonzeroUnusedBits) s) ∨
    (decode strict (fetchWord s) = .ok .rti ∧
      t = raiseFatal (.unimplementedInstruction s.pc (fetchWord s)) (emit (.instructionStart s.pc .rti) s)) := by
  obtain ⟨hm, -, rfl⟩ | ⟨-, ⟨⟩, hd, rfl⟩ | ⟨hr, i, u, hd, hu, rfl⟩ := nextInstruction_cases h
  · simp [hm] at ht
  · obtain ⟨hstrict, hbits⟩ := decode_eq_error_iff.1 hd
    exact .inl ⟨hstrict, hbits, rfl⟩
  · by_cases hi : i = .rti
    · subst hi
      rw [nextInstruction_of_ok hr hd, runInstruction_rti] at h
      exact .inr ⟨hd, (Host.Outcome.next.inj h).symm⟩
    · have hmark := exec_faultMark (wellFormed_of_decode hd) hi hu
      simp [hmark, hr.1] at ht

/-- Settles O45: `raiseFatal` changes the fault mark only, and RTI's instruction_start the trace only. -/
theorem fatalStepsArePrecise : Obligations.FatalStepsArePrecise := by
  intro strict s t e h ht
  obtain ⟨hstrict, hbits, rfl⟩ | ⟨hd, rfl⟩ := nextInstruction_marks h ht
  · obtain rfl := Option.some.inj ht
    simp [hstrict, hbits]
  · obtain rfl := Option.some.inj ht
    simp [hd]

/-! ### The bracket of an executed instruction (R280 to R282) -/

theorem endInstruction_trace_of_none {t : State} (h : t.faultMark = none) (p : Word) (v : Variant) :
    (endInstruction p v t).trace =
      t.trace ++ (if t.pc = p then [] else [.pcChange p t.pc]) ++ [.instructionEnd p v] := by
  rw [endInstruction_of_none h]
  split_ifs <;> simp

/-- Settles O48: a step that returns Ok(Executed) has run an instruction and marked no error. -/
theorem stepsAreBracketedOnTheTrace : Obligations.StepsAreBracketedOnTheTrace := by
  intro strict s t h hexecuted
  have hnone : Running s → t.faultMark = none := fun hr => Option.eq_none_iff_forall_ne_some.2 fun e ht => by
    simp [stepReturn_of_marked_next hr h ht] at hexecuted
  obtain ⟨hm, hh, -⟩ | ⟨hr, reason, -, rfl⟩ | ⟨hr, i, u, hd, hu, rfl⟩ := nextInstruction_cases h
  · simp [stepReturn_of_halted hm hh] at hexecuted
  · simpa using hnone hr
  · obtain ⟨own, htrace, hown⟩ := exec_trace (wellFormed_of_decode hd) hu
    refine ⟨i, own, hd, ?_, hown⟩
    rw [endInstruction_trace_of_none (by simpa using hnone hr), htrace, emit_trace, endInstruction_pc]

/-! ### Earlier events have no influence (R275) -/

section
variable (tr : List TraceEvent) (s : State)

theorem emit_withEarlierTrace (ev : TraceEvent) : emit ev (withEarlierTrace tr s) = withEarlierTrace tr (emit ev s) := by
  ext1 <;> simp

theorem writeReg_withEarlierTrace (i : RegNum) (v : Word) :
    writeReg i v (withEarlierTrace tr s) = withEarlierTrace tr (writeReg i v s) := by
  ext1 <;> simp

theorem writeResult_withEarlierTrace (dr : RegNum) (r : Word) :
    writeResult dr r (withEarlierTrace tr s) = withEarlierTrace tr (writeResult dr r s) := by
  ext1 <;> simp

theorem storeWord_withEarlierTrace (a v : Word) :
    advancePc (memWrite a v (withEarlierTrace tr s)) = withEarlierTrace tr (advancePc (memWrite a v s)) := by
  ext1 <;> simp

theorem callTo_withEarlierTrace (a : Word) : callTo a (withEarlierTrace tr s) = withEarlierTrace tr (callTo a s) := by
  ext1 <;> simp

theorem nextAnswer_withEarlierTrace : nextAnswer (withEarlierTrace tr s) = nextAnswer s := rfl

theorem ioReadChar_withEarlierTrace : ioReadChar (withEarlierTrace tr s) = withEarlierTrace tr (ioReadChar s) := by
  ext1 <;> simp [nextAnswer_withEarlierTrace]

theorem ioReadCharEcho_withEarlierTrace :
    ioReadCharEcho (withEarlierTrace tr s) = withEarlierTrace tr (ioReadCharEcho s) := by
  ext1 <;> simp [nextAnswer_withEarlierTrace]

theorem receiveChar_withEarlierTrace (answer : Option Byte) :
    receiveChar answer (withEarlierTrace tr s) = withEarlierTrace tr (receiveChar answer s) := by
  cases answer with
  | none => rfl
  | some b => exact writeReg_withEarlierTrace tr s _ _

theorem finishScan_withEarlierTrace (chars : Option (List Byte)) :
    finishScan chars (withEarlierTrace tr s) = mapNext (withEarlierTrace tr) (finishScan chars s) := by
  cases chars <;> rfl

theorem serviceGetc_withEarlierTrace :
    serviceGetc (withEarlierTrace tr s) = mapNext (withEarlierTrace tr) (serviceGetc s) := by
  unfold serviceGetc
  rw [nextAnswer_withEarlierTrace, ioReadChar_withEarlierTrace, receiveChar_withEarlierTrace]
  rfl

theorem serviceIn_withEarlierTrace :
    serviceIn (withEarlierTrace tr s) = mapNext (withEarlierTrace tr) (serviceIn s) := by
  unfold serviceIn
  rw [nextAnswer_withEarlierTrace, ioReadCharEcho_withEarlierTrace, receiveChar_withEarlierTrace]
  rfl

theorem routeTrap_withEarlierTrace (vector8 : BitVec 8) :
    routeTrap vector8 (withEarlierTrace tr s) = mapNext (withEarlierTrace tr) (routeTrap vector8 s) := by
  unfold routeTrap
  split_ifs
  · exact serviceGetc_withEarlierTrace tr s
  · rfl
  · exact finishScan_withEarlierTrace tr s _
  · exact serviceIn_withEarlierTrace tr s
  · exact finishScan_withEarlierTrace tr s _
  · rfl
  · rfl

/-- An instruction only appends to the trace: one case for each shared ending, and the router for the TRAP rows. -/
theorem exec_withEarlierTrace (i : Instr) :
    exec i (withEarlierTrace tr s) = mapNext (withEarlierTrace tr) (exec i s) := by
  cases i with
  | br n z p offset9 =>
    rw [exec_br, exec_br, withEarlierTrace_cc]
    cases branchTaken n z p s.cc <;> rfl
  | jmp | ret | rti => rfl
  | jsr | jsrr => exact congrArg Host.Outcome.next (callTo_withEarlierTrace tr s _)
  | stb | str | sti => exact congrArg Host.Outcome.next (storeWord_withEarlierTrace tr s _ _)
  | trap vector8 => exact routeTrap_withEarlierTrace tr s vector8
  | getc => exact routeTrap_withEarlierTrace tr s 0x20#8
  | out => exact routeTrap_withEarlierTrace tr s 0x21#8
  | puts => exact routeTrap_withEarlierTrace tr s 0x22#8
  | inn => exact routeTrap_withEarlierTrace tr s 0x23#8
  | putsp => exact routeTrap_withEarlierTrace tr s 0x24#8
  | halt => exact routeTrap_withEarlierTrace tr s 0x25#8
  | _ => exact congrArg Host.Outcome.next (writeResult_withEarlierTrace tr s _ _)

theorem endInstruction_withEarlierTrace (p : Word) (v : Variant) :
    endInstruction p v (withEarlierTrace tr s) = withEarlierTrace tr (endInstruction p v s) := by
  cases h : s.faultMark with
  | some e => rw [endInstruction_of_some h, endInstruction_of_some (t := withEarlierTrace tr s) h]
  | none =>
    rw [endInstruction_of_none h, endInstruction_of_none (t := withEarlierTrace tr s) h, withEarlierTrace_pc]
    split_ifs <;> simp only [emit_withEarlierTrace]

theorem runInstruction_withEarlierTrace (i : Instr) :
    runInstruction i (withEarlierTrace tr s) = mapNext (withEarlierTrace tr) (runInstruction i s) := by
  unfold runInstruction
  rw [withEarlierTrace_pc, emit_withEarlierTrace, exec_withEarlierTrace]
  cases exec i (emit (.instructionStart s.pc i.variant) s) with
  | next t => exact congrArg Host.Outcome.next (endInstruction_withEarlierTrace tr t _ _)
  | fault r | refused r => rfl

theorem nextInstruction_withEarlierTrace (strict : Bool) :
    nextInstruction strict (withEarlierTrace tr s) = mapNext (withEarlierTrace tr) (nextInstruction strict s) := by
  cases hm : s.faultMark with
  | some e => rw [nextInstruction_of_mark hm, nextInstruction_of_mark (s := withEarlierTrace tr s) hm]; rfl
  | none =>
    cases hh : s.halted with
    | true => rw [nextInstruction_of_halted hm hh, nextInstruction_of_halted (s := withEarlierTrace tr s) hm hh]; rfl
    | false =>
      have hr : Running s := ⟨hm, hh⟩
      have hrTrace : Running (withEarlierTrace tr s) := hr
      cases hd : decode strict (fetchWord s) with
      | error reason => rw [nextInstruction_of_error hr hd, nextInstruction_of_error hrTrace hd]; rfl
      | ok i => rw [nextInstruction_of_ok hr hd, nextInstruction_of_ok hrTrace hd, runInstruction_withEarlierTrace]

theorem stepReturn_withEarlierTrace (strict : Bool) :
    stepReturn strict (withEarlierTrace tr s) = stepReturn strict s := by
  unfold stepReturn
  rw [nextInstruction_withEarlierTrace]
  cases nextInstruction strict s <;> rfl

end

/-- Settles O49. -/
theorem traceDoesNotInfluenceTheCore : Obligations.TraceDoesNotInfluenceTheCore :=
  fun strict tr s => ⟨nextInstruction_withEarlierTrace tr s strict, stepReturn_withEarlierTrace tr s strict⟩

end Sys2Proof.Machine

/-! ## The host's rules of spec/70_reset_and_hazards.md: the bracket of a step, load_program, run, and the one stuck step

A running machine's step is `runInstruction` of the decoded instruction (R306); only an endless scan leaves it without a
successor (R308). `loadWords` and `run` are recursions over the words and the budget: what a load leaves at each address
(R302), and what a returned count says (R307), follow by induction along them. -/

namespace Sys2Proof.Machine

/-! ### The bracket of a step (R306) -/

theorem stepReturn_of_unmarked_next {strict : Bool} {s t : State} (hr : Running s)
    (h : nextInstruction strict s = .next t) (ht : t.faultMark = none) : stepReturn strict s = .executed := by
  obtain ⟨hm, hh⟩ := hr
  unfold stepReturn ioIsHalted
  simp [hm, hh, h, ht]

theorem stepReturn_of_fault {strict : Bool} {s : State} {r : Fault} (hr : Running s)
    (h : nextInstruction strict s = .fault r) : stepReturn strict s = .hang := by
  obtain ⟨hm, hh⟩ := hr
  unfold stepReturn ioIsHalted
  simp [hm, hh, h]

theorem nextInstruction_of_exec_next {strict : Bool} {s t : State} {i : Instr} (hr : Running s)
    (hd : decode strict (fetchWord s) = .ok i) (he : exec i (emit (.instructionStart s.pc i.variant) s) = .next t) :
    nextInstruction strict s = .next (endInstruction s.pc i.variant t) := by
  rw [nextInstruction_of_ok hr hd, runInstruction, he]

/-- Settles O40: what `endInstruction` emits depends on the mark that the instruction leaves. -/
theorem stepRunsTheDecodedInstruction : Obligations.StepRunsTheDecodedInstruction := by
  intro strict s i hr hd
  refine ⟨fun t he ht => ?_, fun t e he ht => ?_, fun r he => nextInstruction_of_exec_fault hr hd he, rfl⟩
  · have hstep := nextInstruction_of_exec_next hr hd he
    have hreturn := stepReturn_of_unmarked_next hr hstep (by simpa using ht)
    rw [endInstruction_of_none ht] at hstep
    exact ⟨hstep, hreturn⟩
  · have hstep := nextInstruction_of_exec_next hr hd he
    rw [endInstruction_of_some ht] at hstep
    exact ⟨hstep, stepReturn_of_marked_next hr hstep ht⟩

/-! ### The host's entry (R302, R309) -/

theorem tableWord_sixteen (w : Nat) : tableWord 16 w = BitVec.ofNat 16 w :=
  BitVec.eq_of_toNat_eq (by simp [tableWord])

theorem decodeTableWord_eq_some_iff {nbits w : Nat} {i : Instr} :
    decodeTableWord nbits w = some i ↔ decode Config.strictUnusedBits (tableWord nbits w) = .ok i := by
  unfold decodeTableWord
  cases decode Config.strictUnusedBits (tableWord nbits w) <;> simp

theorem placeFetchWord_running (w : Word) (s : State) : Running (placeFetchWord w s) := ⟨rfl, rfl⟩

@[simp] theorem fetchWord_placeFetchWord (w : Word) (s : State) : fetchWord (placeFetchWord w s) = w := by
  simp [fetchWord, memRead]

/-- Settles O41: the placed word is the one fetched, by a machine that runs. -/
theorem stepRunsThePlacedWord : Obligations.StepRunsThePlacedWord := by
  intro s w i _ hdecode
  have hrunning : Running (s.withFetchWord 16 w) := placeFetchWord_running _ s
  have hfetch : fetchWord (s.withFetchWord 16 w) = tableWord 16 w := fetchWord_placeFetchWord _ s
  refine ⟨hrunning, hfetch.trans (tableWord_sixteen w), nextInstruction_of_ok hrunning ?_⟩
  rw [hfetch]
  exact decodeTableWord_eq_some_iff.1 hdecode

/-! ### The one stuck step (R308) -/

/-- Every canonical instruction has a next state, but for PUTS and PUTSP over a memory with no terminator. -/
theorem exec_next_or_stuck {i : Instr} (hw : i.wellFormed = true) (s : State) :
    (∃ t, exec i s = .next t) ∨
    (exec i s = .fault .scanNeverStops ∧
      ((i = .puts ∧ ∀ a, s.mem.readWord a ≠ 0#16) ∨ (i = .putsp ∧ ∀ k < byteKeys, s.mem.readByte k ≠ 0#8))) := by
  have hshape := exec_shape hw s
  obtain ⟨-, hputs, -, hputsp⟩ := scansAreStuckExactlyWithoutATerminator s
  cases h : exec i s with
  | next t => exact .inl ⟨t, rfl⟩
  | fault r =>
    rw [h] at hshape
    cases hshape with
    | stuckPuts hi => exact .inr ⟨rfl, .inl ⟨hi, hputs.1 (hi ▸ h)⟩⟩
    | stuckPutsp hi => exact .inr ⟨rfl, .inr ⟨hi, hputsp.1 (hi ▸ h)⟩⟩
  | refused r =>
    rw [h] at hshape
    cases hshape

/-- Settles O46: a halted step and a DecodeError have a next state, and so has every decoded instruction but an endless
scan, which sees the memory of the state the step starts in. -/
theorem onlyAnEndlessScanHasNoSuccessor : Obligations.OnlyAnEndlessScanHasNoSuccessor := by
  intro strict s hm
  cases hh : s.halted with
  | true => exact .inl ⟨s, nextInstruction_of_halted hm hh strict⟩
  | false =>
    have hr : Running s := ⟨hm, hh⟩
    cases hd : decode strict (fetchWord s) with
    | error reason => exact .inl ⟨_, nextInstruction_of_error hr hd⟩
    | ok i =>
      obtain ⟨t, he⟩ | ⟨he, hscan⟩ :=
        exec_next_or_stuck (wellFormed_of_decode hd) (emit (.instructionStart s.pc i.variant) s)
      · exact .inl ⟨_, nextInstruction_of_exec_next hr hd he⟩
      · have hstep := nextInstruction_of_exec_fault hr hd he
        exact .inr ⟨hstep, rfl, stepReturn_of_fault hr hstep, by simpa using hscan⟩

/-! ### load_program (R302) -/

/-- An address that no word of the load goes to. -/
theorem readWord_loadWords_of_not_written {words : List Word} {origin b : Word} {m : Memory}
    (h : ∀ i < words.length, origin + BitVec.ofNat 16 i ≠ b) :
    (loadWords words origin m).readWord b = m.readWord b := by
  induction words generalizing origin m with
  | nil => rfl
  | cons w rest ih =>
    have hfirst : b ≠ origin := fun hb => h 0 (by simp) (by simp [hb])
    rw [loadWords, ih fun i hi => by rw [← add_ofNat_succ]; exact h (i + 1) (by simpa using hi),
      Memory.readWord_writeWord, if_neg hfirst]

/-- The address of a word that no later word of the load overwrites. -/
theorem readWord_loadWords_of_last_write {words : List Word} {origin : Word} {m : Memory} {i : Nat}
    (hi : i < words.length)
    (hlast : ∀ j, i < j → j < words.length → origin + BitVec.ofNat 16 j ≠ origin + BitVec.ofNat 16 i) :
    (loadWords words origin m).readWord (origin + BitVec.ofNat 16 i) = words[i] := by
  induction words generalizing origin m i with
  | nil => simp at hi
  | cons w rest ih =>
    rw [loadWords]
    cases i with
    | zero =>
      rw [readWord_loadWords_of_not_written fun j hj => by
        rw [← add_ofNat_succ]; exact hlast (j + 1) (by omega) (by simpa using hj)]
      simp
    | succ i =>
      rw [add_ofNat_succ origin i]
      refine ih (by simpa using hi) fun j hij hj => ?_
      rw [← add_ofNat_succ, ← add_ofNat_succ]
      exact hlast (j + 1) (by omega) (by simpa using hj)

/-- Settles O54. -/
theorem loadProgramWritesInOrder : Obligations.LoadProgramWritesInOrder :=
  fun _ _ _ => ⟨fun _ hi hlast => readWord_loadWords_of_last_write hi hlast,
    fun _ h => readWord_loadWords_of_not_written h, rfl, rfl⟩

/-! ### run (R307) -/

/-- What `run` gives after `executed` instructions that came before it, which are counted too. -/
def RunReturn.addCount (executed : Nat) : RunReturn → RunReturn
  | .ok count s => .ok (executed + count) s
  | .err e s => .err e s
  | .hang => .hang

theorem RunReturn.addCount_zero (r : RunReturn) : r.addCount 0 = r := by
  cases r <;> simp [addCount]

theorem RunReturn.countOne_addCount (executed : Nat) (r : RunReturn) :
    (r.addCount executed).countOne = r.addCount (executed + 1) := by
  cases r <;> simp [addCount, Nat.add_right_comm]

theorem RunReturn.countOne_eq_ok_iff {r : RunReturn} {c : Nat} {t : State} :
    r.countOne = .ok c t ↔ ∃ count, r = .ok count t ∧ c = count + 1 := by
  cases r <;> simp [eq_comm, and_comm]

/-- The ways a run with a budget can return a count: the latch is set and nothing is executed, or one instruction is, and
the rest of the run is counted with it. -/
theorem run_succ_eq_ok_cases {strict : Bool} {max c : Nat} {s t : State} (h : run strict (max + 1) s = .ok c t) :
    (s.halted = true ∧ c = 0 ∧ t = s) ∨
    (s.halted = false ∧ ∃ u count, nextInstruction strict s = .next u ∧ u.faultMark = none ∧
      run strict max u = .ok count t ∧ c = count + 1) := by
  cases hh : s.halted with
  | true =>
    rw [run_of_halted hh] at h
    cases h
    exact .inl ⟨rfl, rfl, rfl⟩
  | false =>
    cases hstep : nextInstruction strict s with
    | next u =>
      cases hu : u.faultMark with
      | none =>
        rw [run_succ_of_next hh hstep hu] at h
        obtain ⟨count, hrest, hc⟩ := RunReturn.countOne_eq_ok_iff.1 h
        exact .inr ⟨rfl, u, count, rfl, hu, hrest, hc⟩
      | some e =>
        rw [run_succ_of_error hh hstep hu] at h
        cases h
    | fault r =>
      simp only [run, ioIsHalted, hh, hstep] at h
      cases r <;> cases h
    | refused r =>
      simp only [run, ioIsHalted, hh, hstep] at h
      cases h

section
variable {strict : Bool} {m c : Nat} {s t : State}

theorem run_count_le (h : run strict m s = .ok c t) : c ≤ m := by
  induction m generalizing s c with
  | zero => cases h; exact le_rfl
  | succ m ih =>
    obtain ⟨-, rfl, -⟩ | ⟨-, u, count, -, -, hrest, rfl⟩ := run_succ_eq_ok_cases h
    · exact Nat.zero_le _
    · exact Nat.succ_le_succ (ih hrest)

theorem run_halted_of_count_lt (h : run strict m s = .ok c t) (hc : c < m) : t.halted = true := by
  induction m generalizing s c with
  | zero => omega
  | succ m ih =>
    obtain ⟨hh, -, rfl⟩ | ⟨-, u, count, -, -, hrest, rfl⟩ := run_succ_eq_ok_cases h
    · exact hh
    · exact ih hrest (Nat.lt_of_succ_lt_succ hc)

theorem run_faultMark (h : run strict m s = .ok c t) (hs : s.faultMark = none) : t.faultMark = none := by
  induction m generalizing s c with
  | zero => cases h; exact hs
  | succ m ih =>
    obtain ⟨-, -, rfl⟩ | ⟨-, u, count, -, hu, hrest, -⟩ := run_succ_eq_ok_cases h
    · exact hs
    · exact ih hrest hu

/-- A run that used its budget up can be continued. -/
theorem run_add_of_full (h : run strict m s = .ok m t) (n : Nat) :
    run strict (m + n) s = (run strict n t).addCount m := by
  induction m generalizing s with
  | zero =>
    cases h
    rw [Nat.zero_add, RunReturn.addCount_zero]
  | succ m ih =>
    obtain ⟨-, hc, -⟩ | ⟨hh, u, count, hstep, hu, hrest, hc⟩ := run_succ_eq_ok_cases h
    · cases hc
    · cases hc
      rw [Nat.add_right_comm, run_succ_of_next hh hstep hu, ih hrest,
        RunReturn.countOne_addCount]

/-- A run that stopped early gives the same for any larger budget. -/
theorem run_add_of_early_stop (h : run strict m s = .ok c t) (hc : c < m) (n : Nat) :
    run strict (m + n) s = .ok c t := by
  induction m generalizing s c with
  | zero => omega
  | succ m ih =>
    obtain ⟨hh, rfl, rfl⟩ | ⟨hh, u, count, hstep, hu, hrest, rfl⟩ := run_succ_eq_ok_cases h
    · exact run_of_halted hh _ _
    · rw [Nat.add_right_comm, run_succ_of_next hh hstep hu,
        ih hrest (Nat.lt_of_succ_lt_succ hc), RunReturn.countOne_ok]

end

/-- Settles O56. -/
theorem runCountsExecutedInstructions : Obligations.RunCountsExecutedInstructions := by
  refine ⟨fun strict max s => ⟨run_zero strict s, fun hh => run_of_halted hh strict max, fun hh => ?_⟩,
    fun strict m n s => ⟨fun c t h => ?_, fun t h => ?_, fun c t h hc => run_add_of_early_stop h hc n⟩⟩
  · exact ⟨fun t hstep ht => run_succ_of_next hh hstep ht max, fun t e hstep ht => run_succ_of_error hh hstep ht max,
      fun e hs => run_succ_of_mark hh hs strict max, fun hstep => run_succ_of_scan hh hstep max⟩
  · exact ⟨run_count_le h, run_halted_of_count_lt h, run_faultMark h⟩
  · exact run_add_of_full h n

end Sys2Proof.Machine
